-- ==== Sys2Proof/Word.lean ====
section
/-! DEFINITION. The widths of Magma CORE's values (00_scope.md R4, section 6): all unsigned, bit 0 the least significant. -/

namespace Sys2Proof

/-- `u4`: one nibble of a word, one entry of a substitution table (R27). -/
abbrev Nibble := BitVec 4

/-- `u8`: one byte of a buffer (R28). -/
abbrev Byte := BitVec 8

/-- `u32`: a key word, a block half, the IV, a round key (R4 WORD). Its `+` is the `+32` of R8. -/
abbrev Word := BitVec 32

/-- `u64`: a block, the gamma counter, a keystream word (R4 BLOCK). Its `+` is the `+64` of R8. -/
abbrev Block := BitVec 64

end Sys2Proof
end

