-- ==== Sys2Proof/Config.lean ====
section
/-! DEFINITION. What is fixed for one instance of the core but open in the spec (00_scope.md R5, 20_memory.md R50). The
default table of values stands in Machine/Sbox.lean. -/

namespace Sys2Proof

/-- The substitution ROM: 8 rows of 16 entries of 4 bits (10_state.md R27, 40_substitution.md R80). Row i serves nibble
position i of a word, position 0 being the least significant. -/
abbrev Sbox := Vector (Vector Nibble 16) 8

/-- The two parameters of R5 that rules read. Both are data of the instance and no step changes them. -/
structure Config where
  /-- SBOX. -/
  sbox : Sbox
  /-- LENW: the width in bits of SRC_LEN and DST_LEN; a length is below 2 ^ LENW. -/
  lenw : Nat
  deriving DecidableEq, Repr

/-- Every row of the table is a permutation of 0..15 (R80): no two entries of a row are equal. -/
abbrev Sbox.RowsArePermutations (sb : Sbox) : Prop :=
  ∀ i : Fin 8, ∀ v w : Fin 16, (sb[i])[v] = (sb[i])[w] → v = w

/-- The bounds R5 puts on its parameters. -/
abbrev Config.Wf (c : Config) : Prop := c.sbox.RowsArePermutations ∧ 0 < c.lenw

/-- REG_BASE of R50: where a platform places the register file. Open; "no rule reads" it, and neither does the model. -/
opaque Config.regBase : Nat

/-- SRC_BASE of R50. Open; no rule and no part of the model reads it. -/
opaque Config.srcBase : Nat

/-- DST_BASE of R50. Open; no rule and no part of the model reads it. -/
opaque Config.dstBase : Nat

end Sys2Proof
end

