-- ==== Sys2Proof/Syntax.lean ====
section
/-! DEFINITION. The seven commands (30_encoding.md R61), the registers by name (10_state.md R15), and the host's actions
and notation (30_encoding.md R65). -/

namespace Sys2Proof

/-- The commands of the opcode table, one constructor a row. A command word carries no operand: every operand is implicit,
in the registers and buffers R62 names (R60). -/
inductive Instr where
  /-- ROUND: one Feistel round on L, R with RKEY (41_round.md R92). -/
  | round
  /-- ENCBLK: BOUT becomes the encryption of BIN under K (43_block.md R111). -/
  | encblk
  /-- DECBLK: BOUT becomes the decryption of BIN under K (43_block.md R112). -/
  | decblk
  /-- ENCECB: every 8-byte chunk of SRC encrypted into DST (44_ecb.md R120). -/
  | encecb
  /-- DECECB: every 8-byte chunk of SRC decrypted into DST (44_ecb.md R121). -/
  | dececb
  /-- ENCGAM: SRC xored with the keystream of K and IV into DST (45_gamma.md R130). -/
  | encgam
  /-- DECGAM: the same function as ENCGAM under its own command word (45_gamma.md R131). -/
  | decgam
  deriving DecidableEq, Repr

/-- The direction a key schedule runs in (42_key_schedule.md R100). -/
inductive Dir where
  | enc
  | dec
  deriving DecidableEq, Repr

/-- The registers the host can name (10_state.md R15). -/
inductive Reg where
  | cmd
  | status
  | srcLen
  | dstLen
  | iv
  | rkey
  | l
  | r
  | bin
  | bout
  | key (i : Fin 8)
  deriving DecidableEq, Repr

/-- The two buffer spaces (20_memory.md R40 to R42). -/
inductive Space where
  | src
  | dst
  deriving DecidableEq, Repr

/-- One action of the host, as it reaches the core: registers by number, values as numbers (30_encoding.md R65), and the
reset event (70_reset_and_hazards.md R180). -/
inductive HostAction where
  /-- `WR reg, value`; with the number of CMD it issues a command (R24). -/
  | wr (number value : Nat)
  /-- `RD reg`. -/
  | rd (number : Nat)
  /-- `WRSRC off, b0 b1 ...`. -/
  | wrSrc (off : Nat) (bytes : List Byte)
  /-- `RDDST off, n`. -/
  | rdDst (off n : Nat)
  /-- Reset is asserted (R180). -/
  | reset
  deriving DecidableEq, Repr

/-- A line of the host notation of R65, pseudo-instructions included; `HostLine.expand` (Decode.lean) gives its actions. -/
inductive HostLine where
  | wr (reg : Reg) (value : Nat)
  | rd (reg : Reg)
  | wrSrc (off : Nat) (bytes : List Byte)
  | rdDst (off n : Nat)
  /-- One of the seven mnemonics on a line of its own. -/
  | command (i : Instr)
  /-- `KEY w0, ..., w7`. -/
  | key (words : Vector Word 8)
  /-- `LEN n`. -/
  | len (n : Nat)
  /-- `CMD k`. -/
  | cmd (k : Nat)
  deriving DecidableEq, Repr

end Sys2Proof
end

