-- ==== Sys2Proof/Machine/Arith.lean ====
section
/-! DEFINITION. The notation of 00_scope.md sections 6 and 7 on words: halves, concatenation, rotation, nibbles, bytes. -/

namespace Sys2Proof.Machine

/-- `a +32 b` (R8): (a + b) mod 2^32, no flag. -/
def add32 (a b : Word) : Word := a + b

/-- `a +64 b` (R8): (a + b) mod 2^64, no flag. -/
def add64 (a b : Block) : Block := a + b

/-- `lo32(b)`: bits 31:0. -/
def lo32 (b : Block) : Word := b.extractLsb' 0 32

/-- `hi32(b)`: bits 63:32. -/
def hi32 (b : Block) : Word := b.extractLsb' 32 32

/-- `cat64(h, l)`: h in bits 63:32, l in bits 31:0. -/
def cat64 (h l : Word) : Block := (h.setWidth 64 <<< 32) ||| l.setWidth 64

/-- `rotl32(x, n)` for 0 < n < 32 (R9). -/
def rotl32 (x : Word) (n : Nat) : Word := (x <<< n) ||| (x >>> (32 - n))

/-- ROT: the rotation of a round (R4). -/
def rot : Nat := 11

/-- Nibble i of a word: `(t >> 4i) & 0xF` (40_substitution.md R82). -/
def nibble (t : Word) (i : Nat) : Nibble := t.extractLsb' (4 * i) 4

/-- Byte i of a block: `b[8i+7 : 8i]` (20_memory.md R44, 45_gamma.md R135). -/
def byteOf (b : Block) (i : Nat) : Byte := b.extractLsb' (8 * i) 8

/-- `2^(8*rest) - 1`, the mask of a tail of `rest` bytes, 1 to 7 (45_gamma.md R134). -/
def tailMask (rest : Nat) : Block := BitVec.ofNat 64 (2 ^ (8 * rest) - 1)

end Sys2Proof.Machine
end

