-- ==== Sys2Proof/Machine/Substitution.lean ====
section
/-! DEFINITION. The substitution layer (40_substitution.md): `expand` nibble by nibble (R82), its byte-wide form (R84) and
its inverse (R83). The machine uses the form of R82. -/

namespace Sys2Proof.Machine

/-- The nibble positions of a word, least significant first. -/
def nibblePositions : List (Fin 8) := [0, 1, 2, 3, 4, 5, 6, 7]

/-- `SBOX[i][v]` (R27). -/
def sboxEntry (sb : Sbox) (i : Fin 8) (v : Nibble) : Nibble := (sb[i])[v.toFin]

/-- Put at every nibble position i of the output what `f i` makes of the input's nibble i. -/
def mapNibbles (f : Fin 8 → Nibble → Nibble) (t : Word) : Word :=
  nibblePositions.foldl (fun o i => o ||| ((f i (nibble t i)).setWidth 32 <<< (4 * i.val))) 0

/-- `expand(t)` (R82). -/
def expand (sb : Sbox) (t : Word) : Word := mapNibbles (sboxEntry sb) t

/-- The entry v of row i's inverse: the position at which the row holds v (R83). A row that does not hold v, which R80
rules out, gives 0. -/
def inverseEntry (sb : Sbox) (i : Fin 8) (v : Nibble) : Nibble :=
  match (List.finRange 16).find? (fun w => (sb[i])[w] == v) with
  | some w => BitVec.ofFin w
  | none => 0

/-- The inverse of `expand`, which the core never computes (R83). -/
def expandInverse (sb : Sbox) (t : Word) : Word := mapNibbles (inverseEntry sb) t

/-- `T[b][v]` (R84): the contribution of byte b's two nibbles, shifted into position. -/
def byteTable (sb : Sbox) (b : Fin 4) (v : Byte) : Word :=
  ((sboxEntry sb ⟨2 * b.val, by omega⟩ (v.extractLsb' 0 4)).setWidth 32 <<< (8 * b.val))
    ||| ((sboxEntry sb ⟨2 * b.val + 1, by omega⟩ (v.extractLsb' 4 4)).setWidth 32 <<< (8 * b.val + 4))

/-- The byte-wide form of `expand` (R84). -/
def expandByBytes (sb : Sbox) (t : Word) : Word :=
  byteTable sb 0 (t.extractLsb' 0 8) ||| byteTable sb 1 (t.extractLsb' 8 8)
    ||| byteTable sb 2 (t.extractLsb' 16 8) ||| byteTable sb 3 (t.extractLsb' 24 8)

end Sys2Proof.Machine
end

