-- ==== Sys2Proof/Machine/Feistel.lean ====
section
/-! DEFINITION. The round (41_round.md R90, R91), the key schedule and the cycles (42_key_schedule.md), the block functions
(43_block.md). All are functions of SBOX, the key and their arguments, and of nothing else (10_state.md R30). -/

namespace Sys2Proof.Machine

/-- The eight key words as one value: K[0], ..., K[7] (10_state.md R10). -/
abbrev Key := Vector Word 8

/-- The working halves (l, r) of a block operation. -/
abbrev Halves := Word × Word

/-- `g(a, k) = rotl32(expand(a +32 k), 11)` (R91); steps 1 to 3 of R90. -/
def g (sb : Sbox) (a k : Word) : Word := rotl32 (expand sb (add32 a k)) rot

/-- `round(L, R, k)` (R90, step 4 as 90_conflicts.md C1 settles it): L' = R xor x, R' = L. -/
def round (sb : Sbox) (p : Halves) (k : Word) : Halves := (p.2 ^^^ g sb p.1 k, p.1)

/-- `ksel(d, j)`: the index of the key word that round j uses (R100). -/
def ksel (d : Dir) (j : Fin 32) : Fin 8 :=
  match d with
  | .enc => if h : j.val ≤ 23 then ⟨j.val % 8, by omega⟩ else ⟨31 - j.val, by omega⟩
  | .dec => if h : j.val ≤ 7 then ⟨j.val, by omega⟩ else ⟨7 - j.val % 8, by omega⟩

/-- The round keys of the 32 rounds, first round first: `K[ksel(d, j)]`, the registers' values themselves (R100). -/
def roundKeys (d : Dir) (key : Key) : List Word := (List.finRange 32).map (fun j => key[ksel d j])

/-- One round for each key of a list, in its order. -/
def runRounds (sb : Sbox) (ks : List Word) (p : Halves) : Halves := ks.foldl (round sb) p

/-- The halves a block enters as: l = lo32, r = hi32 (R110). -/
def splitBlock (b : Block) : Halves := (lo32 b, hi32 b)

/-- The block a pair of halves leaves as: cat64(l, r), l in the high half (R110). -/
def joinHalves (p : Halves) : Block := cat64 p.1 p.2

/-- `block(d, b)` (R111): 32 rounds between the split and the reassembly. -/
def block (sb : Sbox) (key : Key) (d : Dir) (b : Block) : Block :=
  joinHalves (runRounds sb (roundKeys d key) (splitBlock b))

/-- `encryptBlock(b, K)` (R111). -/
def encryptBlock (sb : Sbox) (key : Key) (b : Block) : Block := block sb key .enc b

/-- `decryptBlock(b, K)` (R112). -/
def decryptBlock (sb : Sbox) (key : Key) (b : Block) : Block := block sb key .dec b

/-- The key order of a forward cycle (R103). -/
def fwd : Vector (Fin 8) 8 := #v[0, 1, 2, 3, 4, 5, 6, 7]

/-- The key order of a backward cycle (R103). -/
def bwd : Vector (Fin 8) 8 := #v[7, 6, 5, 4, 3, 2, 1, 0]

/-- A cycle: eight rounds with the key words of an order (R103). -/
def cycle (sb : Sbox) (key : Key) (order : Vector (Fin 8) 8) (p : Halves) : Halves :=
  runRounds sb (order.toList.map (fun i => key[i])) p

/-- One pair of rounds with no swapping of names: the first updates the R half, the second the L half (R104). -/
def roundPair (sb : Sbox) (k₁ k₂ : Word) (p : Halves) : Halves :=
  let p2 := p.2 ^^^ g sb p.1 k₁
  (p.1 ^^^ g sb p2 k₂, p2)

/-- The paired form of a cycle (R104). -/
def cyclePaired (sb : Sbox) (key : Key) (order : Vector (Fin 8) 8) (p : Halves) : Halves :=
  let p₁ := roundPair sb key[order[0]] key[order[1]] p
  let p₂ := roundPair sb key[order[2]] key[order[3]] p₁
  let p₃ := roundPair sb key[order[4]] key[order[5]] p₂
  roundPair sb key[order[6]] key[order[7]] p₃

/-- The four cycles of a direction (R103): encryption forward, forward, forward, backward; decryption forward and three
backward. -/
def cycles (d : Dir) : List (Vector (Fin 8) 8) :=
  match d with
  | .enc => [fwd, fwd, fwd, bwd]
  | .dec => [fwd, bwd, bwd, bwd]

end Sys2Proof.Machine
end

