-- ==== Sys2Proof/Machine/Registers.lean ====
section
/-! DEFINITION. The register table of 10_state.md R15: numbers, widths, and what the host may do with each. -/

namespace Sys2Proof

/-- The number column of R15. -/
def Reg.number : Reg → Nat
  | .cmd => 0
  | .status => 1
  | .srcLen => 2
  | .dstLen => 3
  | .iv => 4
  | .rkey => 5
  | .l => 6
  | .r => 7
  | .bin => 8
  | .bout => 9
  | .key i => 16 + i.val

/-- The register a number names; 10 to 15 and 24 upward name none (R15). -/
def Reg.ofNumber (n : Nat) : Option Reg :=
  if h : 16 ≤ n ∧ n < 24 then some (.key ⟨n - 16, by omega⟩)
  else if n = 0 then some .cmd
  else if n = 1 then some .status
  else if n = 2 then some .srcLen
  else if n = 3 then some .dstLen
  else if n = 4 then some .iv
  else if n = 5 then some .rkey
  else if n = 6 then some .l
  else if n = 7 then some .r
  else if n = 8 then some .bin
  else if n = 9 then some .bout
  else none

/-- The width column of R15, in bits; SRC_LEN and DST_LEN have the instance's LENW. -/
def Reg.width (lenw : Nat) : Reg → Nat
  | .cmd => 32
  | .status => 32
  | .srcLen => lenw
  | .dstLen => lenw
  | .iv => 32
  | .rkey => 32
  | .l => 32
  | .r => 32
  | .bin => 64
  | .bout => 64
  | .key _ => 32

/-- Whether the host may write the register: STATUS and BOUT are read only (R15). -/
def Reg.hostMayWrite : Reg → Bool
  | .status => false
  | .bout => false
  | .cmd => true
  | .srcLen => true
  | .dstLen => true
  | .iv => true
  | .rkey => true
  | .l => true
  | .r => true
  | .bin => true
  | .key _ => true

/-- Whether the host may read the register: CMD is write only (R15). -/
def Reg.hostMayRead : Reg → Bool
  | .cmd => false
  | .status => true
  | .srcLen => true
  | .dstLen => true
  | .iv => true
  | .rkey => true
  | .l => true
  | .r => true
  | .bin => true
  | .bout => true
  | .key _ => true

/-- The `n` bytes from `off` lie inside a buffer space, whose offsets are below 2 ^ LENW (10_state.md section 1, R28).
No byte at all lies anywhere. -/
def inSpace (lenw off n : Nat) : Bool := n == 0 || decide (off + n ≤ 2 ^ lenw)

end Sys2Proof
end

