-- ==== Sys2Proof/WellFormed.lean ====
section
/-! DEFINITION. Which terms of Syntax.lean stand for something the spec has: commands, host actions, programs. -/

namespace Sys2Proof

/-- Every command is well-formed: the format carries no register field, no immediate and no mode bit (R60), and no command
is legal in one state and illegal in another (R64). -/
def Instr.wf : Instr → Bool
  | .round => true
  | .encblk => true
  | .decblk => true
  | .encecb => true
  | .dececb => true
  | .encgam => true
  | .decgam => true

/-- A host action the spec gives a meaning as an action: the number names a register the host may use so, the value has
the register's width (R15), the bytes lie inside the space (R28). -/
def HostAction.wf (lenw : Nat) : HostAction → Bool
  | .wr n v =>
    match Reg.ofNumber n with
    | some reg => reg.hostMayWrite && decide (v < 2 ^ reg.width lenw)
    | none => false
  | .rd n =>
    match Reg.ofNumber n with
    | some reg => reg.hostMayRead
    | none => false
  | .wrSrc off bs => inSpace lenw off bs.length
  | .rdDst off n => inSpace lenw off n
  | .reset => true

/-- A host program is well-formed when each of its actions is. -/
def programWf (lenw : Nat) (p : List HostAction) : Bool := p.all (HostAction.wf lenw)

end Sys2Proof
end

