-- ==== Sys2Proof/Decode.lean ====
section
/-! DEFINITION. The command word (30_encoding.md R60, R61, R64): decoder, encoder, the opcode table, and the expansion and
encoding of host lines (R65). -/

namespace Sys2Proof

/-- Why a word written to CMD is reserved (R64). -/
inductive DecodeError where
  /-- One of bits 31:3 is set. -/
  | highBitsSet (w : Word)
  /-- Bits 31:3 are zero and op is 0: the word 0. -/
  | opZero
  deriving DecidableEq, Repr

/-- Bits 2:0 of a command word (R60). -/
def opField (w : Word) : BitVec 3 := w.extractLsb' 0 3

/-- Bits 31:3 of a command word (R60). -/
def zeroField (w : Word) : BitVec 29 := w.extractLsb' 3 29

/-- The decoder, total on every word: the seven words of R61, every other one reserved by name (R64). -/
def decode (w : Word) : Except DecodeError Instr :=
  if zeroField w ≠ 0 then .error (.highBitsSet w)
  else if opField w = 1 then .ok .round
  else if opField w = 2 then .ok .encblk
  else if opField w = 3 then .ok .decblk
  else if opField w = 4 then .ok .encecb
  else if opField w = 5 then .ok .dececb
  else if opField w = 6 then .ok .encgam
  else if opField w = 7 then .ok .decgam
  else .error .opZero

/-- The op column of R61. -/
def Instr.op : Instr → BitVec 3
  | .round => 1
  | .encblk => 2
  | .decblk => 3
  | .encecb => 4
  | .dececb => 5
  | .encgam => 6
  | .decgam => 7

/-- The command word of a command: op in bits 2:0, zero in bits 31:3 (R60). -/
def encode (i : Instr) : Word := (0 : BitVec 29) ++ i.op

/-- The mnemonic column of R61. -/
def Instr.mnemonic : Instr → String
  | .round => "ROUND"
  | .encblk => "ENCBLK"
  | .decblk => "DECBLK"
  | .encecb => "ENCECB"
  | .dececb => "DECECB"
  | .encgam => "ENCGAM"
  | .decgam => "DECGAM"

/-- A row of the opcode table: a word w is the row's command when `w &&& mask = pattern`. -/
structure OpcodeRow where
  instr : Instr
  pattern : Word
  mask : Word
  deriving DecidableEq, Repr

/-- spec/opcode_table.json, row by row. -/
def opcodeTable : List OpcodeRow :=
  [⟨.round, 0x00000001, 0xFFFFFFFF⟩, ⟨.encblk, 0x00000002, 0xFFFFFFFF⟩, ⟨.decblk, 0x00000003, 0xFFFFFFFF⟩,
   ⟨.encecb, 0x00000004, 0xFFFFFFFF⟩, ⟨.dececb, 0x00000005, 0xFFFFFFFF⟩, ⟨.encgam, 0x00000006, 0xFFFFFFFF⟩,
   ⟨.decgam, 0x00000007, 0xFFFFFFFF⟩]

/-- The host's question: the command in the word whose low `nbits` bits are `w`. A command word is 32 bits (R60), so a
number with a higher bit set is none. -/
def decodeTableWord (nbits w : Nat) : Option Instr :=
  if w % 2 ^ nbits < 2 ^ 32 then (decode (BitVec.ofNat 32 (w % 2 ^ nbits))).toOption else none

/-- The host action that issues a command word: a write to CMD (R24). -/
def commandAction (w : Word) : HostAction := .wr Reg.cmd.number w.toNat

/-- The expansion table of R65, pseudo-instructions included. -/
def HostLine.expand : HostLine → List HostAction
  | .wr reg v => [.wr reg.number v]
  | .rd reg => [.rd reg.number]
  | .wrSrc off bs => [.wrSrc off bs]
  | .rdDst off n => [.rdDst off n]
  | .command i => [commandAction (encode i)]
  | .key ws =>
    [.wr 16 ws[0].toNat, .wr 17 ws[1].toNat, .wr 18 ws[2].toNat, .wr 19 ws[3].toNat,
     .wr 20 ws[4].toNat, .wr 21 ws[5].toNat, .wr 22 ws[6].toNat, .wr 23 ws[7].toNat]
  | .len n => [.wr Reg.srcLen.number n, .wr Reg.dstLen.number n]
  | .cmd k => [.wr Reg.cmd.number k]

/-- The actions of a program written in the host notation, line after line. -/
def expandProgram (p : List HostLine) : List HostAction := p.flatMap HostLine.expand

/-- The (register number, value) pair of an action, for the actions that are register writes (R65). -/
def HostAction.pair : HostAction → Option (Nat × Nat)
  | .wr n v => some (n, v)
  | .rd _ => none
  | .wrSrc _ _ => none
  | .rdDst _ _ => none
  | .reset => none

/-- "The encoding of a program is the sequence of (register number, value) pairs of its `WR` lines" (R65). -/
def encodeProgram (p : List HostLine) : List (Nat × Nat) := (expandProgram p).filterMap HostAction.pair

end Sys2Proof
end

