-- ==== Sys2Proof/Machine/Sbox.lean ====
section
/-! DEFINITION. The default values of the instance's parameters (00_scope.md R5): the table of 40_substitution.md R81 and
LENW = 64. UNVERIFIED: the spec took the table from general knowledge (93_implementation_defined.md G1); log entry 3. -/

namespace Sys2Proof.Machine

/-- The rows of R81, entry 0 first. -/
def defaultSbox : Sbox :=
  #v[#v[0xC, 0x4, 0x6, 0x2, 0xA, 0x5, 0xB, 0x9, 0xE, 0x8, 0xD, 0x7, 0x0, 0x3, 0xF, 0x1],
     #v[0x6, 0x8, 0x2, 0x3, 0x9, 0xA, 0x5, 0xC, 0x1, 0xE, 0x4, 0x7, 0xB, 0xD, 0x0, 0xF],
     #v[0xB, 0x3, 0x5, 0x8, 0x2, 0xF, 0xA, 0xD, 0xE, 0x1, 0x7, 0x4, 0xC, 0x9, 0x6, 0x0],
     #v[0xC, 0x8, 0x2, 0x1, 0xD, 0x4, 0xF, 0x6, 0x7, 0x0, 0xA, 0x5, 0x3, 0xE, 0x9, 0xB],
     #v[0x7, 0xF, 0x5, 0xA, 0x8, 0x1, 0x6, 0xD, 0x0, 0x9, 0x3, 0xE, 0xB, 0x4, 0x2, 0xC],
     #v[0x5, 0xD, 0xF, 0x6, 0x9, 0x2, 0xC, 0xA, 0xB, 0x7, 0x8, 0x1, 0x4, 0x3, 0xE, 0x0],
     #v[0x8, 0xE, 0x2, 0x5, 0x6, 0x9, 0x1, 0xC, 0xF, 0x4, 0xB, 0x0, 0xD, 0xA, 0x3, 0x7],
     #v[0x1, 0x7, 0xE, 0xD, 0x0, 0x5, 0x8, 0x3, 0x4, 0xF, 0xA, 0x6, 0x9, 0xC, 0xB, 0x2]]

/-- LENW's default (R5). -/
def defaultLenw : Nat := 64

/-- The default instance. -/
def defaultConfig : Config := { sbox := defaultSbox, lenw := defaultLenw }

end Sys2Proof.Machine
end

