-- ==== Sys2Proof/Machine/State.lean ====
section
/-! DEFINITION. All the state of 10_state.md section 1 as plain data, the outcomes that are no next state, and reset. -/

namespace Sys2Proof.Machine

/-- What a register holds. `novalue` is the spec's own content, not a missing reset value: "the content of a register or
byte that nothing has written, or that a rule says is discarded" (00_scope.md section 6; R13, R14, R32). -/
inductive Held (α : Type) where
  | novalue
  | val (a : α)
  deriving DecidableEq, Repr

/-- A buffer space: the bytes that hold a value, offsets strictly rising; an unlisted offset holds `novalue` (R13, R32). -/
abbrev Memory := List Host.Cell

/-- What a host read brought back (R65 `RD`, `RDDST`). -/
inductive Reply where
  | reg (name : Reg) (value : Nat)
  | bytes (off : Nat) (bs : List Byte)
  deriving DecidableEq, Repr

/-- The two errors a command can report, a closed enumeration (60_exceptions.md R150, R151). They are reported in STATUS by a
step that completes; they are no `Fault` of the model. -/
inductive LengthError where
  /-- "source buffer length is not a multiple of the 8-byte block size" (R153). -/
  | lengthNotBlockAligned
  /-- "source and destination buffer lengths differ" (R154). -/
  | lengthMismatch
  deriving DecidableEq, Repr

/-- What stops the machine because it names a place that does not exist. -/
inductive Fault where
  /-- Raised by the host's WRSRC and RDDST: an offset at or above 2 ^ LENW, where the space has no byte (10_state.md
  section 1, R28). Safe: the model stops. -/
  | outsideSpace (space : Space) (off n : Nat)
  deriving DecidableEq, Repr

/-- What the spec gives no meaning and a model refuses (60_exceptions.md R160). Safe, each of them: the model stops. -/
inductive Refusal where
  /-- An instruction of the table without a meaning in this model; no arm of `exec` raises it. -/
  | notModelled (mnemonic : String)
  /-- A host write of a reserved word to CMD (R64, R160 a). -/
  | reservedWord (e : DecodeError)
  /-- A command or a host read needs a register that holds `novalue` (R13, R160 b and c): in `need`. -/
  | noValue (reg : Reg)
  /-- A buffer command or RDDST needs a byte that holds `novalue` (R13, R160 b and c): in `needByte`. -/
  | noValueByte (space : Space) (off : Nat)
  /-- A host access to a number that names no register (R15, R160 d). -/
  | noSuchRegister (number : Nat)
  /-- A host write to STATUS or BOUT (R15, R160 d). -/
  | notWritable (reg : Reg)
  /-- A host read of CMD (R15, R160 d). -/
  | notReadable (reg : Reg)
  /-- A host write of a value wider than the register: "not expressible", since "a write carries exactly the register's
  width" (R15). -/
  | valueTooWide (reg : Reg) (value : Nat)
  deriving DecidableEq, Repr

/-- The state of one core and its host. CMD has no field: "CMD holds nothing afterwards; it is a doorbell, not storage"
(R24). The locals of a command (l, r, ctr, gamma, the round and chunk indices) are no state either (R21, R22, R29). -/
structure State where
  /-- SBOX, the ROM (R27), and LENW (R5); no step changes it. -/
  cfg : Config
  /-- K[0..7] (R10). -/
  key : Vector (Held Word) 8
  /-- RKEY (R11). -/
  rkey : Held Word
  /-- L (R11). -/
  l : Held Word
  /-- R (R11). -/
  r : Held Word
  /-- BIN (R12). -/
  bin : Held Block
  /-- BOUT (R12). -/
  bout : Held Block
  /-- IV (R12). -/
  iv : Held Word
  /-- SRC_LEN, LENW bits (R26). -/
  srcLen : Held Nat
  /-- DST_LEN, LENW bits (R26). -/
  dstLen : Held Nat
  /-- STATUS: code in bits 1:0, bits 31:2 zero (R25). -/
  status : Word
  /-- SRC (R28, R40). -/
  src : Memory
  /-- DST (R28, R41). -/
  dst : Memory
  /-- The host's actions still to come, next first: the host's program (R20, R65). The model's own field; log entry 1. -/
  pending : List HostAction
  /-- What the host has read so far, oldest first. The model's own field; log entry 2. -/
  replies : List Reply
  deriving DecidableEq, Repr

/-- The machine right after reset (R32, R180): STATUS = 0, everything else `novalue`, SBOX at its constant values. -/
def State.reset : State where
  cfg := defaultConfig
  key := #v[.novalue, .novalue, .novalue, .novalue, .novalue, .novalue, .novalue, .novalue]
  rkey := .novalue
  l := .novalue
  r := .novalue
  bin := .novalue
  bout := .novalue
  iv := .novalue
  srcLen := .novalue
  dstLen := .novalue
  status := 0
  src := []
  dst := []
  pending := []
  replies := []

end Sys2Proof.Machine
end

