-- ==== Sys2Proof/Machine/Ops.lean ====
section
/-! DEFINITION. The shared operations: sequencing of reads, bytes of memory, and the ways a command ends: by an error
(`raiseError`, R152) or by success with what it discards (10_state.md R14). -/

namespace Sys2Proof.Machine

/-- A computation that may end in a fault or a refusal. -/
abbrev Res (α : Type) := Host.Outcome α Fault Refusal

/-- Do `x`, then `f` with what it gave; a fault or a refusal ends both. -/
def andThen {α β : Type} (x : Res α) (f : α → Res β) : Res β :=
  match x with
  | .next a => f a
  | .fault e => .fault e
  | .refused e => .refused e

/-- Whether a register or byte holds a value. -/
def Held.isVal {α : Type} : Held α → Bool
  | .novalue => false
  | .val _ => true

/-- The byte at an offset: `novalue` where nothing is listed (R13). -/
def Memory.get (m : Memory) (off : Nat) : Held Byte :=
  match m with
  | [] => .novalue
  | c :: rest => if c.1 = off then .val c.2 else Memory.get rest off

/-- Write the byte at an offset, keeping offsets strictly rising. -/
def Memory.set (m : Memory) (off : Nat) (b : Byte) : Memory :=
  match m with
  | [] => [(off, b)]
  | c :: rest =>
    if off < c.1 then (off, b) :: c :: rest
    else if c.1 = off then (off, b) :: rest
    else c :: Memory.set rest off b

/-- The canonical form: offsets strictly rising. No entry can equal what an unlisted offset reads as, since that is
`novalue` and an entry holds a value. -/
abbrev Memory.wf (m : Memory) : Prop := m.Pairwise (fun a b => a.1 < b.1)

/-- Write bytes at consecutive offsets from `off`. -/
def Memory.setBytes (m : Memory) (off : Nat) : List Byte → Memory
  | [] => m
  | b :: bs => Memory.setBytes (Memory.set m off b) (off + 1) bs

/-- The 32-bit STATUS word of an outcome: 0 OK, 1 LengthNotBlockAligned, 2 LengthMismatch (R25, R151). -/
def statusWord : Option LengthError → Word
  | none => 0
  | some .lengthNotBlockAligned => 1
  | some .lengthMismatch => 2

/-- `raise E` (R152): STATUS gets the code and nothing else is written. There is no vector, no saved state, no mode change,
and nothing to return from (R159). -/
def raiseError (e : LengthError) (s : State) : State := { s with status := statusWord (some e) }

/-- ROUND succeeds with new halves: L, R and STATUS written, BOUT discarded (R14, R92). -/
def roundDone (p : Halves) (s : State) : State :=
  { s with l := .val p.1, r := .val p.2, bout := .novalue, status := statusWord none }

/-- A block command succeeds: BOUT and STATUS written, L and R discarded (R14, R111). -/
def blockDone (b : Block) (s : State) : State :=
  { s with bout := .val b, l := .novalue, r := .novalue, status := statusWord none }

/-- A buffer command succeeds: DST and STATUS written, L, R and BOUT discarded (R14, R120, R130). -/
def bufferDone (dst : Memory) (s : State) : State :=
  { s with dst := dst, l := .novalue, r := .novalue, bout := .novalue, status := statusWord none }

end Sys2Proof.Machine
end

