-- ==== Sys2Proof/Machine/Operands.lean ====
section
/-! DEFINITION. Operands of commands (30_encoding.md R62 and section 3): registers that must hold a value (R13), the key,
and the little-endian accesses of the buffers (20_memory.md R43, R44). -/

namespace Sys2Proof.Machine

/-- The value of a register operand. Where it holds `novalue` "the model refuses it (no step, no fault code, no state change)"
and "never substitutes zero or any other value" (R13, R160 b and c; rulings D13, U10, U18). -/
def need {α : Type} (reg : Reg) (h : Held α) : Res α :=
  match h with
  | .val a => .next a
  | .novalue => .refused (.noValue reg)

/-- The byte at an offset of a space; refused when it holds `novalue` (R13, R160 b and c). -/
def needByte (space : Space) (m : Memory) (off : Nat) : Res Byte :=
  match Memory.get m off with
  | .val b => .next b
  | .novalue => .refused (.noValueByte space off)

/-- All eight key words, every one of which must hold a value (R13, R62). -/
def needKey (key : Vector (Held Word) 8) : Res Key :=
  andThen (need (.key 0) key[0]) fun k0 =>
  andThen (need (.key 1) key[1]) fun k1 =>
  andThen (need (.key 2) key[2]) fun k2 =>
  andThen (need (.key 3) key[3]) fun k3 =>
  andThen (need (.key 4) key[4]) fun k4 =>
  andThen (need (.key 5) key[5]) fun k5 =>
  andThen (need (.key 6) key[6]) fun k6 =>
  andThen (need (.key 7) key[7]) fun k7 =>
  .next #v[k0, k1, k2, k3, k4, k5, k6, k7]

/-- The `n` bytes of a space from `off`, lowest offset first. -/
def readBytes (space : Space) (m : Memory) (off : Nat) : Nat → Res (List Byte)
  | 0 => .next []
  | n + 1 =>
    andThen (needByte space m off) fun b =>
    andThen (readBytes space m (off + 1) n) fun bs =>
    .next (b :: bs)

/-- The little-endian number of some bytes, lowest offset first (R43), as a block: at most 8 bytes count. -/
def leValue : List Byte → Block
  | [] => 0
  | b :: bs => b.setWidth 64 ||| (leValue bs <<< 8)

/-- The `n` little-endian bytes of a number, least significant first (R44). -/
def leBytes (v : Block) : Nat → List Byte
  | 0 => []
  | n + 1 => byteOf v 0 :: leBytes (v >>> 8) n

/-- `MemRead(SRC, off, n)` for 1 ≤ n ≤ 8 (R43), zero-extended to 64 bits. -/
def memRead (src : Memory) (off n : Nat) : Res Block :=
  andThen (readBytes .src src off n) fun bs => .next (leValue bs)

/-- `MemWrite(DST, off, n, v)` for 1 ≤ n ≤ 8 (R44). -/
def memWrite (dst : Memory) (off n : Nat) (v : Block) : Memory := Memory.setBytes dst off (leBytes v n)

/-- CHUNK: the bytes of a full chunk (00_scope.md R4). -/
def chunkBytes : Nat := 8

/-- The offset of chunk c in both spaces (10_state.md R22). -/
def chunkOffset (c : Nat) : Nat := chunkBytes * c

/-- `cat64(IV, 0)`: the counter of chunk 0 (45_gamma.md R132). -/
def initialCounter (iv : Word) : Block := cat64 iv 0

/-- The increment after a full chunk: one 64-bit wrapping addition (45_gamma.md R133). -/
def nextCounter (ctr : Block) : Block := add64 ctr 1

end Sys2Proof.Machine
end

