-- ==== Sys2Proof/Machine/Flags.lean ====
section
/-! DEFINITION. The core has no flags (10_state.md R23). What stands for them is the outcome of a buffer command's length
validation, which STATUS reports (60_exceptions.md R153, R154, R156). -/

namespace Sys2Proof.Machine

/-- The validation of ENCECB and DECECB: divisibility of SRC_LEN first, equality second (R153, R154, R156). -/
def validateEcb (n m : Nat) : Option LengthError :=
  if n % 8 ≠ 0 then some .lengthNotBlockAligned
  else if n ≠ m then some .lengthMismatch
  else none

/-- The validation of ENCGAM and DECGAM: equality alone (R154). -/
def validateGamma (n m : Nat) : Option LengthError := if n ≠ m then some .lengthMismatch else none

end Sys2Proof.Machine
end

