-- ==== Sys2Proof/Machine/BlockCommands.lean ====
section
/-! DEFINITION. The block commands ENCBLK and DECBLK (43_block.md R111, R112). -/

namespace Sys2Proof.Machine

/-- What ENCBLK and DECBLK share: BOUT becomes block(d, BIN). Refused if BIN or any K[i] holds `novalue`. -/
def blockCommand (d : Dir) (s : State) : Res State :=
  andThen (need .bin s.bin) fun b =>
  andThen (needKey s.key) fun key =>
  .next (blockDone (block s.cfg.sbox key d b) s)

/-- ENCBLK (R111). -/
def execEncblk (s : State) : Res State := blockCommand .enc s

/-- DECBLK (R112). -/
def execDecblk (s : State) : Res State := blockCommand .dec s

end Sys2Proof.Machine
end

