-- ==== Sys2Proof/Machine/EcbCommands.lean ====
section
/-! DEFINITION. The ECB commands ENCECB and DECECB (44_ecb.md R120, R121). -/

namespace Sys2Proof.Machine

/-- The chunks c, c + 1, ... of a buffer, as many as the first number says, in ascending order (10_state.md R22): each is
read from SRC, put through `f` and written to DST (R120). -/
def ecbChunks (f : Block → Block) (src : Memory) : Nat → Nat → Memory → Res Memory
  | 0, _, dst => .next dst
  | k + 1, c, dst =>
    andThen (memRead src (chunkOffset c) chunkBytes) fun v =>
    ecbChunks f src k (c + 1) (memWrite dst (chunkOffset c) chunkBytes (f v))

/-- `ecb(d)` (R120). A length of 0 runs no block operation, so K is not read then (R62, R123 a). -/
def ecbCommand (d : Dir) (s : State) : Res State :=
  andThen (need .srcLen s.srcLen) fun n =>
  andThen (need .dstLen s.dstLen) fun m =>
  match validateEcb n m with
  | some e => .next (raiseError e s)
  | none =>
    if n = 0 then .next (bufferDone s.dst s)
    else
      andThen (needKey s.key) fun key =>
      andThen (ecbChunks (block s.cfg.sbox key d) s.src (n / chunkBytes) 0 s.dst) fun dst =>
      .next (bufferDone dst s)

/-- ENCECB (R120). -/
def execEncecb (s : State) : Res State := ecbCommand .enc s

/-- DECECB (R121). -/
def execDececb (s : State) : Res State := ecbCommand .dec s

end Sys2Proof.Machine
end

