-- ==== Sys2Proof/Machine/GammaCommands.lean ====
section
/-! DEFINITION. The gamma commands ENCGAM and DECGAM (45_gamma.md R130 to R134). -/

namespace Sys2Proof.Machine

/-- The full chunks c, c + 1, ..., as many as the first number says, in ascending order: each is xored with the keystream
word of the counter, which is then incremented (R130, R133). Gives the counter after the last and the new DST. -/
def gammaChunks (keystream : Block → Block) (src : Memory) : Nat → Nat → Block → Memory → Res (Block × Memory)
  | 0, _, ctr, dst => .next (ctr, dst)
  | k + 1, c, ctr, dst =>
    andThen (memRead src (chunkOffset c) chunkBytes) fun v =>
    gammaChunks keystream src k (c + 1) (nextCounter ctr)
      (memWrite dst (chunkOffset c) chunkBytes (v ^^^ keystream ctr))

/-- The tail of `rest` bytes at chunk q, none when `rest` is 0 (R134). -/
def gammaTail (keystream : Block → Block) (src : Memory) (q rest : Nat) (ctr : Block) (dst : Memory) : Res Memory :=
  if rest = 0 then .next dst
  else
    andThen (memRead src (chunkOffset q) rest) fun v =>
    .next (memWrite dst (chunkOffset q) rest (v ^^^ (keystream ctr &&& tailMask rest)))

/-- `gam()` (R130): always the encryption direction. A length of 0 runs no block operation, so IV and K are not read then
(R62, R137 a). -/
def gammaCommand (s : State) : Res State :=
  andThen (need .srcLen s.srcLen) fun n =>
  andThen (need .dstLen s.dstLen) fun m =>
  match validateGamma n m with
  | some e => .next (raiseError e s)
  | none =>
    if n = 0 then .next (bufferDone s.dst s)
    else
      andThen (need .iv s.iv) fun iv =>
      andThen (needKey s.key) fun key =>
      andThen (gammaChunks (block s.cfg.sbox key .enc) s.src (n / chunkBytes) 0 (initialCounter iv) s.dst) fun p =>
      andThen (gammaTail (block s.cfg.sbox key .enc) s.src (n / chunkBytes) (n % chunkBytes) p.1 p.2) fun dst =>
      .next (bufferDone dst s)

/-- ENCGAM (R130). -/
def execEncgam (s : State) : Res State := gammaCommand s

/-- DECGAM (R131): "same function, same contract, same error behavior". -/
def execDecgam (s : State) : Res State := gammaCommand s

end Sys2Proof.Machine
end

