-- ==== Sys2Proof/Machine/RoundCommand.lean ====
section
/-! DEFINITION. The ROUND command (41_round.md R92). -/

namespace Sys2Proof.Machine

/-- ROUND (R92): both new halves are computed from the old L and R; K is not read. Refused if L, R or RKEY holds `novalue`. -/
def execRound (s : State) : Res State :=
  andThen (need .l s.l) fun l0 =>
  andThen (need .r s.r) fun r0 =>
  andThen (need .rkey s.rkey) fun k =>
  .next (roundDone (round s.cfg.sbox (l0, r0) k) s)

end Sys2Proof.Machine
end

