-- ==== Sys2Proof/Machine/Dispatch.lean ====
section
/-! DEFINITION. One arm per command (30_encoding.md R61). -/

namespace Sys2Proof.Machine

def exec (i : Instr) (s : State) : Host.Outcome State Fault Refusal :=
  match i with
  | .round => Sys2Proof.Machine.execRound s
  | .encblk => Sys2Proof.Machine.execEncblk s
  | .decblk => Sys2Proof.Machine.execDecblk s
  | .encecb => Sys2Proof.Machine.execEncecb s
  | .dececb => Sys2Proof.Machine.execDececb s
  | .encgam => Sys2Proof.Machine.execEncgam s
  | .decgam => Sys2Proof.Machine.execDecgam s

end Sys2Proof.Machine
end

