-- ==== Sys2Proof/Machine/HostPort.lean ====
section
/-! DEFINITION. The host's side (00_scope.md R6): register writes and reads (10_state.md R15), buffer accesses, reset, and
the command a write to CMD starts (R24). -/

namespace Sys2Proof.Machine

/-- A host write of `v` to a register that is no command: the value at the register's width. STATUS, BOUT and CMD store
nothing here; `hostWrite` never sends them here. -/
def putReg (reg : Reg) (v : Nat) (s : State) : State :=
  match reg with
  | .cmd => s
  | .status => s
  | .bout => s
  | .srcLen => { s with srcLen := .val v }
  | .dstLen => { s with dstLen := .val v }
  | .iv => { s with iv := .val (BitVec.ofNat 32 v) }
  | .rkey => { s with rkey := .val (BitVec.ofNat 32 v) }
  | .l => { s with l := .val (BitVec.ofNat 32 v) }
  | .r => { s with r := .val (BitVec.ofNat 32 v) }
  | .bin => { s with bin := .val (BitVec.ofNat 64 v) }
  | .key i => { s with key := s.key.set i.val (.val (BitVec.ofNat 32 v)) }

/-- A held value as a number. -/
def Held.toNat {w : Nat} : Held (BitVec w) → Held Nat
  | .novalue => .novalue
  | .val a => .val a.toNat

/-- What a register holds, as a number. CMD holds nothing (R24). -/
def getReg (reg : Reg) (s : State) : Held Nat :=
  match reg with
  | .cmd => .novalue
  | .status => .val s.status.toNat
  | .srcLen => s.srcLen
  | .dstLen => s.dstLen
  | .iv => s.iv.toNat
  | .rkey => s.rkey.toNat
  | .l => s.l.toNat
  | .r => s.r.toNat
  | .bin => s.bin.toNat
  | .bout => s.bout.toNat
  | .key i => (s.key[i]).toNat

/-- A word written to CMD: the core executes the command, or refuses a reserved word (R24, R64). -/
def runCommandWord (w : Word) (s : State) : Res State :=
  match decode w with
  | .ok i => exec i s
  | .error e => .refused (.reservedWord e)

/-- `WR` (R15, R65). -/
def hostWrite (number v : Nat) (s : State) : Res State :=
  match Reg.ofNumber number with
  | none => .refused (.noSuchRegister number)
  | some reg =>
    if reg.hostMayWrite = false then .refused (.notWritable reg)
    else if 2 ^ reg.width s.cfg.lenw ≤ v then .refused (.valueTooWide reg v)
    else if reg = .cmd then runCommandWord (BitVec.ofNat 32 v) s
    else .next (putReg reg v s)

/-- The host has read something. -/
def withReply (a : Reply) (s : State) : State := { s with replies := s.replies ++ [a] }

/-- `RD` (R13, R15, R65). -/
def hostRead (number : Nat) (s : State) : Res State :=
  match Reg.ofNumber number with
  | none => .refused (.noSuchRegister number)
  | some reg =>
    if reg.hostMayRead = false then .refused (.notReadable reg)
    else andThen (need reg (getReg reg s)) fun v => .next (withReply (.reg reg v) s)

/-- SRC after a host's write of bytes. -/
def putSrc (off : Nat) (bs : List Byte) (s : State) : State := { s with src := Memory.setBytes s.src off bs }

/-- `WRSRC` (R40, R65). -/
def hostWriteSrc (off : Nat) (bs : List Byte) (s : State) : Res State :=
  if inSpace s.cfg.lenw off bs.length = false then .fault (.outsideSpace .src off bs.length)
  else .next (putSrc off bs s)

/-- `RDDST` (R13, R41, R65). -/
def hostReadDst (off n : Nat) (s : State) : Res State :=
  if inSpace s.cfg.lenw off n = false then .fault (.outsideSpace .dst off n)
  else andThen (readBytes .dst s.dst off n) fun bs => .next (withReply (.bytes off bs) s)

/-- Reset (R32, R180): every register and byte back to its reset value. The ROM, LENW and what belongs to the host stay. -/
def coreReset (s : State) : State :=
  { State.reset with cfg := s.cfg, pending := s.pending, replies := s.replies }

/-- One action of the host. -/
def hostStep (a : HostAction) (s : State) : Res State :=
  match a with
  | .wr number v => hostWrite number v s
  | .rd number => hostRead number s
  | .wrSrc off bs => hostWriteSrc off bs s
  | .rdDst off n => hostReadDst off n s
  | .reset => .next (coreReset s)

/-- The host's remaining actions. -/
def withPending (as : List HostAction) (s : State) : State := { s with pending := as }

/-- A register a command needs: what it holds, or 0 where it holds `novalue`. -/
def orZero {α : Type} (zero : α) : Held α → Held α
  | .novalue => .val zero
  | .val a => .val a

/-- The host's minimal set-up for a command (70_reset_and_hazards.md R181, R182): the operand registers of R62 that still
hold `novalue` are written with 0. Used only to place one command before `step`, never by `step`; log entry 4. -/
def minimalSetup (i : Instr) (s : State) : State :=
  match i with
  | .round => { s with l := orZero 0 s.l, r := orZero 0 s.r, rkey := orZero 0 s.rkey }
  | .encblk => { s with bin := orZero 0 s.bin, key := s.key.map (orZero 0) }
  | .decblk => { s with bin := orZero 0 s.bin, key := s.key.map (orZero 0) }
  | .encecb => { s with srcLen := orZero 0 s.srcLen, dstLen := orZero 0 s.dstLen, key := s.key.map (orZero 0) }
  | .dececb => { s with srcLen := orZero 0 s.srcLen, dstLen := orZero 0 s.dstLen, key := s.key.map (orZero 0) }
  | .encgam => { s with srcLen := orZero 0 s.srcLen, dstLen := orZero 0 s.dstLen, iv := orZero 0 s.iv, key := s.key.map (orZero 0) }
  | .decgam => { s with srcLen := orZero 0 s.srcLen, dstLen := orZero 0 s.dstLen, iv := orZero 0 s.iv, key := s.key.map (orZero 0) }

/-- Make the write of a word to CMD the host's next action, after the minimal set-up of the command it holds. -/
def issueWord (w : Nat) (s : State) : State :=
  match decode (BitVec.ofNat 32 w) with
  | .ok i => withPending (.wr Reg.cmd.number w :: s.pending) (minimalSetup i s)
  | .error _ => withPending (.wr Reg.cmd.number w :: s.pending) s

end Sys2Proof.Machine
end

