-- ==== Sys2Proof/Machine/Step.lean ====
section
/-! DEFINITION. One step: the host's next action, whole (00_scope.md R7); without one the core is idle and keeps all state
(60_exceptions.md section 7). -/

namespace Sys2Proof.Machine

/-- The next action is taken off the host's list and done. A write to CMD runs its command as one transition (R7). -/
def step (s : State) : Host.Outcome State Fault Refusal :=
  match s.pending with
  | [] => .next s
  | a :: rest => hostStep a (withPending rest s)

/-- `s` with a command word as the host's next action: `step` of it runs exactly that command (R24). The operand registers
the command needs that hold `novalue` are set up as R182 asks; nothing else changes. -/
def State.withFetchWord (s : State) (nbits w : Nat) : State := issueWord (w % 2 ^ nbits) s

end Sys2Proof.Machine
end

