-- ==== Sys2Proof/Machine/Instances.lean ====
section
/-! DEFINITION. Several instances of the core (20_memory.md R53, 60_exceptions.md R170): each with its own registers and
buffers, sharing only SBOX. A position in the list is the model's way to say which instance moves; instances themselves
"have no identifiers". -/

namespace Sys2Proof.Machine

/-- Some cores and their hosts. -/
abbrev Instances := List State

/-- The instances share one table (R170). -/
def Instances.ShareSbox (is : Instances) : Prop := ∀ s ∈ is, ∀ t ∈ is, s.cfg.sbox = t.cfg.sbox

/-- One step of the instance at a position; where there is none, nothing happens. -/
def stepInstance (k : Nat) (is : Instances) : Res Instances :=
  match is[k]? with
  | none => .next is
  | some s => andThen (step s) fun t => .next (is.set k t)

end Sys2Proof.Machine
end

