-- ==== Sys2Proof/Safety.lean ====
section
/-! DEFINITION. The terms claims are stated in: when a command completes (70_reset_and_hazards.md R182), the invariant of
every step, what holds a given key or source string, and what a table must answer (00_scope.md R5). -/

namespace Sys2Proof.Machine

/-- A step, or a command, answers a next state. -/
def Completes (o : Host.Outcome State Fault Refusal) : Prop := ∃ t, o = .next t

/-- K[0..7] hold the words of `key`. -/
abbrev State.HoldsKey (s : State) (key : Key) : Prop := ∀ i : Fin 8, s.key[i] = .val key[i]

/-- SRC[0..n-1] hold the bytes of `src`, `src i` at offset i. -/
abbrev State.HoldsSource (s : State) (n : Nat) (src : Nat → Byte) : Prop :=
  ∀ a, a < n → Memory.get s.src a = .val (src a)

/-- Both length registers hold `n`. -/
abbrev State.Lengths (s : State) (n m : Nat) : Prop := s.srcLen = .val n ∧ s.dstLen = .val m

/-- Every key register holds some value. -/
abbrev State.KeyWritten (s : State) : Prop := ∀ i : Fin 8, s.key[i].isVal = true

/-- SRC[0..n-1] hold some bytes. -/
abbrev State.SourceWritten (s : State) (n : Nat) : Prop := ∀ a, a < n → (Memory.get s.src a).isVal = true

/-- What a command needs before the CMD write: the table of R182, row by row (operands of R62). -/
def Ready (i : Instr) (s : State) : Prop :=
  match i with
  | .round => s.l.isVal = true ∧ s.r.isVal = true ∧ s.rkey.isVal = true
  | .encblk => s.bin.isVal = true ∧ s.KeyWritten
  | .decblk => s.bin.isVal = true ∧ s.KeyWritten
  | .encecb => ∃ n m, s.Lengths n m ∧ (n % 8 = 0 → n = m → 0 < n → s.KeyWritten ∧ s.SourceWritten n)
  | .dececb => ∃ n m, s.Lengths n m ∧ (n % 8 = 0 → n = m → 0 < n → s.KeyWritten ∧ s.SourceWritten n)
  | .encgam => ∃ n m, s.Lengths n m ∧ (n = m → 0 < n → s.iv.isVal = true ∧ s.KeyWritten ∧ s.SourceWritten n)
  | .decgam => ∃ n m, s.Lengths n m ∧ (n = m → 0 < n → s.iv.isVal = true ∧ s.KeyWritten ∧ s.SourceWritten n)

/-- A length register holds a number below 2 ^ LENW, or `novalue` (R26). -/
def lengthFits (lenw : Nat) : Held Nat → Prop
  | .novalue => True
  | .val n => n < 2 ^ lenw

/-- All bytes of a space lie at offsets below 2 ^ LENW (10_state.md section 1). -/
def Memory.Within (lenw : Nat) (m : Memory) : Prop := ∀ c ∈ m, c.1 < 2 ^ lenw

/-- What every step keeps: a legal table and LENW (R5, R80), canonical buffers inside their spaces, lengths of LENW bits
(R26), and STATUS 0, 1 or 2 with its upper bits zero (R25). -/
structure State.Inv (s : State) : Prop where
  cfg : s.cfg.Wf
  srcWf : Memory.wf s.src
  dstWf : Memory.wf s.dst
  srcWithin : Memory.Within s.cfg.lenw s.src
  dstWithin : Memory.Within s.cfg.lenw s.dst
  srcLen : lengthFits s.cfg.lenw s.srcLen
  dstLen : lengthFits s.cfg.lenw s.dstLen
  status : s.status = 0 ∨ s.status = 1 ∨ s.status = 2

/-- The key of the known-answer vectors (95_test_vectors.md, "K"). -/
def vectorKey : Key :=
  #v[0xFFEEDDCC, 0xBBAA9988, 0x77665544, 0x33221100, 0xF0F1F2F3, 0xF4F5F6F7, 0xF8F9FAFB, 0xFCFDFEFF]

/-- The properties a claim may assume of a table (R5): the source's known-answer vectors V1, V2 and V3. -/
abbrev MeetsVectors (sb : Sbox) : Prop :=
  round sb (0x76543210, 0xFEDCBA98) 0xFFEEDDCC = (0x28DA3B14, 0x76543210) ∧
  encryptBlock sb vectorKey 0xFEDCBA9876543210 = 0x4EE901E5C2D8CA3D ∧
  decryptBlock sb vectorKey 0x4EE901E5C2D8CA3D = 0xFEDCBA9876543210

/-- K[0..7], as registers. -/
def keyRegs : List Reg := (List.finRange 8).map Reg.key

/-- The registers in the "reads" column of R62, row by row. -/
def readRegs : Instr → List Reg
  | .round => [.l, .r, .rkey]
  | .encblk => .bin :: keyRegs
  | .decblk => .bin :: keyRegs
  | .encecb => .srcLen :: .dstLen :: keyRegs
  | .dececb => .srcLen :: .dstLen :: keyRegs
  | .encgam => .srcLen :: .dstLen :: .iv :: keyRegs
  | .decgam => .srcLen :: .dstLen :: .iv :: keyRegs

/-- ENCBLK and DECBLK with the direction of each (R111, R112). -/
def blockInstrs : List (Instr × Dir) := [(.encblk, .enc), (.decblk, .dec)]

/-- ENCECB and DECECB with the direction of each (R120, R121). -/
def ecbInstrs : List (Instr × Dir) := [(.encecb, .enc), (.dececb, .dec)]

/-- The gamma commands (R130, R131). -/
def isGamma (i : Instr) : Prop := i = .encgam ∨ i = .decgam

/-- The ECB commands (R120, R121). -/
def isEcb (i : Instr) : Prop := i = .encecb ∨ i = .dececb

/-- The commands that touch the buffers (R28). -/
def isBuffer (i : Instr) : Prop := isEcb i ∨ isGamma i

/-- The keystream word of chunk c: `encryptBlock((cat64(IV, 0) + c) mod 2^64, K)` (R135). -/
def keystreamWord (sb : Sbox) (key : Key) (iv : Word) (c : Nat) : Block :=
  encryptBlock sb key (cat64 iv 0 + BitVec.ofNat 64 c)

/-- The keystream byte of offset i: byte i mod 8 of the word of chunk i / 8 (R135). -/
def keystreamByte (sb : Sbox) (key : Key) (iv : Word) (i : Nat) : Byte :=
  byteOf (keystreamWord sb key iv (i / 8)) (i % 8)

/-- Chunk c of a byte string, read little-endian (R43). -/
def chunkValue (src : Nat → Byte) (c : Nat) : Block :=
  leValue ((List.range 8).map fun i => src (chunkOffset c + i))

/-- Two states agree on all that a command reads (R62): the table, its registers, and the source bytes of its length. -/
def AgreeOnReads (i : Instr) (s s' : State) : Prop :=
  s.cfg.sbox = s'.cfg.sbox ∧
  match i with
  | .round => s.l = s'.l ∧ s.r = s'.r ∧ s.rkey = s'.rkey
  | .encblk => s.bin = s'.bin ∧ s.key = s'.key
  | .decblk => s.bin = s'.bin ∧ s.key = s'.key
  | .encecb => s.srcLen = s'.srcLen ∧ s.dstLen = s'.dstLen ∧ s.key = s'.key ∧
      ∀ n a, s.srcLen = .val n → a < n → Memory.get s.src a = Memory.get s'.src a
  | .dececb => s.srcLen = s'.srcLen ∧ s.dstLen = s'.dstLen ∧ s.key = s'.key ∧
      ∀ n a, s.srcLen = .val n → a < n → Memory.get s.src a = Memory.get s'.src a
  | .encgam => s.srcLen = s'.srcLen ∧ s.dstLen = s'.dstLen ∧ s.iv = s'.iv ∧ s.key = s'.key ∧
      ∀ n a, s.srcLen = .val n → a < n → Memory.get s.src a = Memory.get s'.src a
  | .decgam => s.srcLen = s'.srcLen ∧ s.dstLen = s'.dstLen ∧ s.iv = s'.iv ∧ s.key = s'.key ∧
      ∀ n a, s.srcLen = .val n → a < n → Memory.get s.src a = Memory.get s'.src a

/-- Two states agree on all that a command writes (R62): STATUS, and on success its results. -/
def AgreeOnWrites (i : Instr) (t t' : State) : Prop :=
  t.status = t'.status ∧
  (t.status = 0 →
    match i with
    | .round => t.l = t'.l ∧ t.r = t'.r
    | .encblk => t.bout = t'.bout
    | .decblk => t.bout = t'.bout
    | .encecb => ∀ n a, t.srcLen = .val n → a < n → Memory.get t.dst a = Memory.get t'.dst a
    | .dececb => ∀ n a, t.srcLen = .val n → a < n → Memory.get t.dst a = Memory.get t'.dst a
    | .encgam => ∀ n a, t.srcLen = .val n → a < n → Memory.get t.dst a = Memory.get t'.dst a
    | .decgam => ∀ n a, t.srcLen = .val n → a < n → Memory.get t.dst a = Memory.get t'.dst a)

end Sys2Proof.Machine
end

