-- ==== Sys2Proof/Certificates/Slice0/Obligations.lean ====
section
/-! DEFINITION. The statements for the provers, from the numbered rules of spec/. Every one that mentions a table or a LENW
holds for every table and every LENW, except where a worked number of the spec names the table of R81. -/

open Sys2Proof Sys2Proof.Machine

/-! ### Command words (30_encoding.md) -/

/-- The seven command words of R61, bit by bit, decode to their commands, and the spec's three reserved examples (V36) to
none. The numbers are decision D3 of the spec. -/
def Obligations.DecodeReadsTheSevenWords : Prop :=
  decode 0b00000000000000000000000000000001 = .ok .round ∧
  decode 0b00000000000000000000000000000010 = .ok .encblk ∧
  decode 0b00000000000000000000000000000011 = .ok .decblk ∧
  decode 0b00000000000000000000000000000100 = .ok .encecb ∧
  decode 0b00000000000000000000000000000101 = .ok .dececb ∧
  decode 0b00000000000000000000000000000110 = .ok .encgam ∧
  decode 0b00000000000000000000000000000111 = .ok .decgam ∧
  decode 0b00000000000000000000000000000000 = .error .opZero ∧
  decode 0b00000000000000000000000000001000 = .error (.highBitsSet 0x00000008) ∧
  decode 0b10000000000000000000000000000001 = .error (.highBitsSet 0x80000001)

/-- Decoding the word of a well-formed command gives it back; a word is a command's exactly when it is that command's word,
which is also the row test of R61 (mask and match); it is reserved exactly when op = 0 or one of bits 31:3 is set (R64). The
numbers are the spec's decisions D3 and D4. -/
def Obligations.DecodeAcceptsExactlyTheTable : Prop :=
  (∀ i : Instr, i.wf = true → decode (encode i) = .ok i) ∧
  (∀ w i, decode w = .ok i ↔ w = encode i) ∧
  (∀ w i, decode w = .ok i ↔ ∃ row ∈ opcodeTable, row.instr = i ∧ w &&& row.mask = row.pattern) ∧
  (∀ w, (∃ e, decode w = .error e) ↔ w.extractLsb' 0 3 = 0 ∨ w.extractLsb' 3 29 ≠ 0)

/-- A host write of a reserved word to CMD is refused: "no step, no state change, no STATUS code" (R64, decision D4). -/
def Obligations.ReservedWordsAreRefused : Prop :=
  ∀ (s : State) (w : Word) (rest : List HostAction), s.pending = .wr 0 w.toNat :: rest →
    (w.extractLsb' 0 3 = 0 ∨ w.extractLsb' 3 29 ≠ 0) → ∃ e, step s = .refused (.reservedWord e)

/-- The expansions and encodings of the host notation (R65, decision D19): a line of `WR` is its pair, a mnemonic is a write of
its word to CMD (number 0), KEY is eight writes in index order, LEN and CMD as tabulated, reads and buffer lines no pair. -/
def Obligations.HostNotationEncodes : Prop :=
  (∀ (reg : Reg) (v : Nat), encodeProgram [.wr reg v] = [(reg.number, v)]) ∧
  (∀ i : Instr, encodeProgram [.command i] = [(0, (encode i).toNat)]) ∧
  (∀ ws : Vector Word 8, encodeProgram [.key ws] = (List.finRange 8).map fun i => (16 + i.val, (ws[i]).toNat)) ∧
  (∀ n k : Nat, encodeProgram [.len n] = [(2, n), (3, n)] ∧ encodeProgram [.cmd k] = [(0, k)]) ∧
  (∀ (reg : Reg) (off n : Nat) (bs : List Byte),
    encodeProgram [.rd reg] = [] ∧ encodeProgram [.wrSrc off bs] = [] ∧ encodeProgram [.rdDst off n] = []) ∧
  (∀ p q : List HostLine, encodeProgram (p ++ q) = encodeProgram p ++ encodeProgram q)

/-! ### The step (00_scope.md R7, 10_state.md R24) -/

/-- When the host's next action is a write of a command's word to CMD, the step is that command's execution on the state
whose action list has moved on; nothing else is added around it. -/
def Obligations.StepRunsTheDecodedCommand : Prop :=
  ∀ (s : State) (w : Word) (i : Instr) (rest : List HostAction), s.pending = .wr 0 w.toNat :: rest →
    decode w = .ok i → step s = exec i { s with pending := rest }

/-- The model's own way to place a command (log entry 4): the placed word runs as that command after the minimal set-up of
R182, and right after reset every command so placed completes. -/
def Obligations.PlacedWordRunsItsCommand : Prop :=
  (∀ (s : State) (w : Word) (i : Instr), decode w = .ok i →
    step (s.withFetchWord 32 w.toNat) = exec i (minimalSetup i s)) ∧
  (∀ i : Instr, ∃ t, step (State.reset.withFetchWord 32 (encode i).toNat) = .next t)

/-- Without a host action the core is idle, and "idleness keeps all state" (60_exceptions.md section 7; that an empty list is
idleness is the model's, log entry 10). -/
def Obligations.IdleStepKeepsAllState : Prop := ∀ s : State, s.pending = [] → step s = .next s

/-! ### Arithmetic (00_scope.md R8, R9) -/

/-- R8: both additions are unsigned and wrap, with the rule's examples. -/
def Obligations.AdditionWraps : Prop :=
  (∀ a b : Word, (add32 a b).toNat = (a.toNat + b.toNat) % 2 ^ 32) ∧
  (∀ a b : Block, (add64 a b).toNat = (a.toNat + b.toNat) % 2 ^ 64) ∧
  add32 0x76543210 0xFFEEDDCC = 0x76430FDC ∧ add64 0xFFFFFFFFFFFFFFFF 1 = 0

/-- R9, rotation: bit j of x goes to bit (j + n) mod 32, for every amount of the rule; its three examples. -/
def Obligations.RotationMovesEveryBit : Prop :=
  (∀ (x : Word) (n j : Nat), 0 < n → n < 32 → j < 32 → (rotl32 x n).getLsbD ((j + n) % 32) = x.getLsbD j) ∧
  rotl32 0x80000000 11 = 0x00000400 ∧ rotl32 0x00200000 11 = 0x00000001 ∧ rotl32 0x12345678 11 = 0xA2B3C091

/-! ### Substitution (40_substitution.md) -/

/-- R82: each nibble of the result is the table entry of the nibble at the same position, row i serving position i; with the
rule's corner cases and worked example, which name the table of R81. -/
def Obligations.ExpandSubstitutesEachNibble : Prop :=
  (∀ (sb : Sbox) (t : Word) (i : Fin 8), nibble (expand sb t) i = (sb[i])[(nibble t i).toFin]) ∧
  expand defaultSbox 0 = 0x1857CB6C ∧ expand defaultSbox 0xFFFFFFFF = 0x270CB0F1 ∧
  expand defaultSbox 0x76430FDC = 0x319AC0D0

/-- R84: entry v of T[b] is the two table entries of v's nibbles in their places; the byte-wide form gives the same word as
`expand` for every table and every input, and joining its four terms by `xor` or by `+32` instead of `|` changes nothing; with
the rule's worked example. -/
def Obligations.ByteWideExpandAgrees : Prop :=
  (∀ (sb : Sbox) (b : Fin 4) (lo hi : Fin 16), (byteTable sb b (BitVec.ofNat 8 (lo.val + 16 * hi.val))).toNat =
    ((sb[2 * b.val])[lo]).toNat * 2 ^ (8 * b.val) + ((sb[2 * b.val + 1])[hi]).toNat * 2 ^ (8 * b.val + 4)) ∧
  (∀ (sb : Sbox) (t : Word), expandByBytes sb t = expand sb t ∧
    byteTable sb 0 (t.extractLsb' 0 8) ^^^ byteTable sb 1 (t.extractLsb' 8 8)
      ^^^ byteTable sb 2 (t.extractLsb' 16 8) ^^^ byteTable sb 3 (t.extractLsb' 24 8) = expand sb t ∧
    byteTable sb 0 (t.extractLsb' 0 8) + byteTable sb 1 (t.extractLsb' 8 8)
      + byteTable sb 2 (t.extractLsb' 16 8) + byteTable sb 3 (t.extractLsb' 24 8) = expand sb t) ∧
  byteTable defaultSbox 0 0xDC = 0x000000D0 ∧ byteTable defaultSbox 1 0x0F = 0x0000C000 ∧
  byteTable defaultSbox 2 0x43 = 0x009A0000 ∧ byteTable defaultSbox 3 0x76 = 0x31000000

/-- R83 (marked derived in the spec): where every row is a permutation, `expand` is a bijection and the inverse rows undo it
on both sides. -/
def Obligations.ExpandIsABijection : Prop :=
  ∀ sb : Sbox, sb.RowsArePermutations →
    Function.Bijective (expand sb) ∧
    (∀ t, expandInverse sb (expand sb t) = t) ∧ (∀ t, expand sb (expandInverse sb t) = t)

/-- The table of R81 has permutations for rows (R80) and answers the source's known-answer vectors (R5; V1, V2, V3). The table
is the spec's from general knowledge (G1; log entry 3). -/
def Obligations.DefaultTableMeetsItsVectors : Prop := defaultSbox.RowsArePermutations ∧ MeetsVectors defaultSbox

/-! ### The round and the schedule (41_round.md, 42_key_schedule.md) -/

/-- R90: the four steps of a round, step 4 as 90_conflicts.md C1 corrects it; with the rule's worked example. -/
def Obligations.RoundFollowsItsFourSteps : Prop :=
  (∀ (sb : Sbox) (l r k : Word), Machine.round sb (l, r) k = (r ^^^ rotl32 (expand sb (l + k)) 11, l)) ∧
  Machine.round defaultSbox (0x76543210, 0xFEDCBA98) 0xFFEEDDCC = (0x28DA3B14, 0x76543210)

/-- R91 (marked derived in the spec): a round is a bijection on pairs for every key, undone by L = R', R = L' xor g(R', k),
and two rounds update both halves by xor. -/
def Obligations.RoundIsABijection : Prop :=
  ∀ (sb : Sbox) (k : Word),
    Function.Bijective (fun p => Machine.round sb p k) ∧
    (∀ l' r' : Word, Machine.round sb (r', l' ^^^ g sb r' k) k = (l', r')) ∧
    (∀ l r k₂ : Word, Machine.round sb (Machine.round sb (l, r) k) k₂ =
      (l ^^^ g sb (r ^^^ g sb l k) k₂, r ^^^ g sb l k))

/-- R100: the four clauses of `ksel`, the word orders written out, and the round key as the register's value itself. -/
def Obligations.KeyScheduleSelects : Prop :=
  (∀ j : Fin 32, (j.val ≤ 23 → (ksel .enc j).val = j.val % 8) ∧ (24 ≤ j.val → (ksel .enc j).val = 31 - j.val) ∧
    (j.val ≤ 7 → (ksel .dec j).val = j.val) ∧ (8 ≤ j.val → (ksel .dec j).val = 7 - j.val % 8)) ∧
  (List.finRange 32).map (ksel .enc) =
    [0, 1, 2, 3, 4, 5, 6, 7, 0, 1, 2, 3, 4, 5, 6, 7, 0, 1, 2, 3, 4, 5, 6, 7, 7, 6, 5, 4, 3, 2, 1, 0] ∧
  (List.finRange 32).map (ksel .dec) =
    [0, 1, 2, 3, 4, 5, 6, 7, 7, 6, 5, 4, 3, 2, 1, 0, 7, 6, 5, 4, 3, 2, 1, 0, 7, 6, 5, 4, 3, 2, 1, 0] ∧
  (∀ (d : Dir) (key : Key) (j : Fin 32), (roundKeys d key)[j.val]? = some key[ksel d j])

/-- R101 (marked derived in the spec): the decryption order is the encryption order read backwards, and each key word is used
exactly four times in either direction. -/
def Obligations.DecryptionOrderIsReversed : Prop :=
  (∀ j : Fin 32, ksel .dec j = ksel .enc ⟨31 - j.val, by omega⟩) ∧
  (∀ key : Key, roundKeys .dec key = (roundKeys .enc key).reverse) ∧
  (∀ (d : Dir) (i : Fin 8), ((List.finRange 32).filter fun j => ksel d j = i).length = 4)

/-- R103: a cycle is eight consecutive rounds in the order of its indices; encryption is forward three times and backward
once, decryption forward once and backward three times; four cycles are the 32 rounds. -/
def Obligations.CyclesMakeTheRounds : Prop :=
  (∀ (sb : Sbox) (key : Key) (o : Vector (Fin 8) 8) (p : Halves),
    cycle sb key o p = (List.finRange 8).foldl (fun q i => Machine.round sb q key[o[i]]) p) ∧
  (∀ i : Fin 8, fwd[i] = i ∧ (bwd[i]).val = 7 - i.val) ∧
  cycles .enc = [fwd, fwd, fwd, bwd] ∧ cycles .dec = [fwd, bwd, bwd, bwd] ∧
  (∀ (sb : Sbox) (key : Key) (d : Dir) (p : Halves),
    runRounds sb (roundKeys d key) p = (cycles d).foldl (fun q o => cycle sb key o q) p)

/-- R104 (marked derived in the spec): the paired form of a cycle, with no swapping of names, gives the same pair. -/
def Obligations.PairedCycleAgrees : Prop :=
  ∀ (sb : Sbox) (key : Key) (o : Vector (Fin 8) 8) (p : Halves), cyclePaired sb key o p = cycle sb key o p

/-! ### The block functions (43_block.md) -/

/-- R110: a block enters as L = its low 32 bits and R = its high 32 bits, and leaves as R | (L << 32), in both directions. -/
def Obligations.BlockSplitsAndReassembles : Prop :=
  ∀ (sb : Sbox) (key : Key) (d : Dir) (b : Block), ∃ l₀ r₀ l r : Word,
    l₀.toNat = b.toNat % 2 ^ 32 ∧ r₀.toNat = b.toNat / 2 ^ 32 ∧
    (l, r) = runRounds sb (roundKeys d key) (l₀, r₀) ∧
    (block sb key d b).toNat = r.toNat + l.toNat * 2 ^ 32

/-- R113 (marked derived in the spec): for every table, key and block, each direction undoes the other. -/
def Obligations.BlockDirectionsInvertEachOther : Prop :=
  ∀ (sb : Sbox) (key : Key) (b : Block),
    decryptBlock sb key (encryptBlock sb key b) = b ∧ encryptBlock sb key (decryptBlock sb key b) = b

/-- R114 (a) (marked derived in the spec): where K[i] = K[7-i] for all i the two directions coincide. -/
def Obligations.PalindromicKeysMakeDirectionsCoincide : Prop :=
  ∀ (sb : Sbox) (key : Key), (∀ i : Fin 8, key[i] = key[7 - i.val]) →
    ∀ b : Block, encryptBlock sb key b = decryptBlock sb key b

/-! ### ROUND, ENCBLK and DECBLK -/

/-- ROUND (R92, decision D2; STATUS and the discard are decisions D5 and D12, log entry 18): from L, R and RKEY that hold
values it completes in exactly this state. L and R get the new halves, both from the old ones; BOUT is discarded; STATUS is
0; nothing else changes, K among it, which is not read. If L, R or RKEY holds `novalue` it is refused (decision D13, log
entry 7; the name of the refusal, log entry 16). -/
def Obligations.RoundCommandResult : Prop :=
  (∀ (s : State) (l r k : Word), s.l = .val l → s.r = .val r → s.rkey = .val k →
    exec .round s = .next { s with
      l := .val (r ^^^ rotl32 (expand s.cfg.sbox (l + k)) 11), r := .val l, bout := .novalue, status := 0 }) ∧
  (∀ s : State, s.l = .novalue ∨ s.r = .novalue ∨ s.rkey = .novalue →
    ∃ reg ∈ readRegs .round, getReg reg s = .novalue ∧ exec .round s = .refused (.noValue reg))

/-- ENCBLK and DECBLK (R111, R112): their words; from BIN and K that hold values they complete in exactly this state (BOUT the
block of their direction, L and R discarded, STATUS 0, nothing else changed); refused if BIN or any K[i] holds `novalue` (the
name of the refusal, log entry 16); the rules' worked examples, which name the table of R81. The words, STATUS, the discard and
`novalue` are decisions D3, D5, D12 and D13 (log entries 19, 18 and 7). -/
def Obligations.BlockCommandResult : Prop :=
  (∀ i d, (i, d) ∈ blockInstrs → ∀ (s : State) (b : Block) (key : Key), s.bin = .val b → s.HoldsKey key →
    exec i s = .next { s with
      bout := .val (joinHalves ((List.finRange 32).foldl (fun p j => Machine.round s.cfg.sbox p key[ksel d j]) (splitBlock b))),
      l := .novalue, r := .novalue, status := 0 }) ∧
  (∀ i d, (i, d) ∈ blockInstrs → ∀ s : State, (s.bin = .novalue ∨ ∃ k : Fin 8, s.key[k] = .novalue) →
    ∃ reg ∈ readRegs i, getReg reg s = .novalue ∧ exec i s = .refused (.noValue reg)) ∧
  encode .encblk = 0x00000002 ∧ encode .decblk = 0x00000003 ∧
  runRounds defaultSbox ((roundKeys .enc vectorKey).take 1) (0x76543210, 0xFEDCBA98) = (0x28DA3B14, 0x76543210) ∧
  runRounds defaultSbox (roundKeys .enc vectorKey) (0x76543210, 0xFEDCBA98) = (0x4EE901E5, 0xC2D8CA3D) ∧
  encryptBlock defaultSbox vectorKey 0xFEDCBA9876543210 = 0x4EE901E5C2D8CA3D ∧
  decryptBlock defaultSbox vectorKey 0x4EE901E5C2D8CA3D = 0xFEDCBA9876543210

/-- 41_round.md, last corner case of R92: thirty-two ROUND commands with RKEY set to K[ksel(d, j)], from L = lo32(b) and
R = hi32(b), leave cat64(L, R) equal to what the block command computes for b (stated there for ENC; it holds for DEC too). -/
def Obligations.RoundCommandsComposeToABlock : Prop :=
  ∀ (s : State) (key : Key) (d : Dir) (b : Block), ∃ (t : State) (l r : Word),
    (List.finRange 32).foldl (fun o j => andThen o fun u => exec .round { u with rkey := .val key[ksel d j] })
      (.next { s with l := .val (lo32 b), r := .val (hi32 b) }) = .next t ∧
    t.l = .val l ∧ t.r = .val r ∧ cat64 l r = block s.cfg.sbox key d b

/-! ### The ECB commands (44_ecb.md) -/

/-- ENCECB and DECECB on an accepted buffer (R120, R121; STATUS and the discard are decisions D5 and D12, log entry 18):
they complete; chunk c of DST holds, at the offsets of chunk c, the little-endian bytes of the block operation of source
chunk c; DST at n and beyond is unchanged; L, R, BOUT are discarded, STATUS is 0, and nothing else changes. Refused
if SRC_LEN or DST_LEN holds `novalue`, and, if validation passes with n > 0, if any K[i] or any SRC[0..n-1] does (decision D13,
log entry 7; the name of the refusal, log entry 16). -/
def Obligations.EcbCommandResult : Prop :=
  (∀ i d, (i, d) ∈ ecbInstrs → ∀ (s : State) (n : Nat) (key : Key) (src : Nat → Byte),
    s.Lengths n n → n % 8 = 0 → s.HoldsKey key → s.HoldsSource n src →
    ∃ dst, exec i s = .next { s with
        dst := dst, l := .novalue, r := .novalue, bout := .novalue, status := 0 } ∧
      (∀ c k, c < n / 8 → k < 8 →
        Memory.get dst (chunkOffset c + k) = .val (byteOf (block s.cfg.sbox key d (chunkValue src c)) k)) ∧
      (∀ a, n ≤ a → Memory.get dst a = Memory.get s.dst a)) ∧
  (∀ i d, (i, d) ∈ ecbInstrs → ∀ s : State, s.srcLen = .novalue ∨ s.dstLen = .novalue →
    ∃ reg ∈ [Reg.srcLen, Reg.dstLen], getReg reg s = .novalue ∧ exec i s = .refused (.noValue reg)) ∧
  (∀ i d, (i, d) ∈ ecbInstrs → ∀ (s : State) (n : Nat), s.Lengths n n → n % 8 = 0 → 0 < n →
    ((∃ k : Fin 8, s.key[k] = .novalue) ∨ ∃ a, a < n ∧ Memory.get s.src a = .novalue) → ∃ e, exec i s = .refused e)

/-- R122: equal source chunks give equal destination chunks, and IV is not read. -/
def Obligations.EqualChunksGiveEqualChunks : Prop :=
  ∀ i d, (i, d) ∈ ecbInstrs → ∀ (s t : State) (n c c' : Nat), exec i s = .next t → t.status = 0 → s.srcLen = .val n →
    c < n / 8 → c' < n / 8 →
    (∀ k, k < 8 → Memory.get s.src (chunkOffset c + k) = Memory.get s.src (chunkOffset c' + k)) →
    (∀ k, k < 8 → Memory.get t.dst (chunkOffset c + k) = Memory.get t.dst (chunkOffset c' + k)) ∧
    (∀ x, exec i { s with iv := x } = .next { t with iv := x })

/-- R123 (f) (marked derived in the spec): after one ECB command, the other one on the bytes it wrote returns the original
bytes, in both orders. -/
def Obligations.EcbDirectionsInvertEachOther : Prop :=
  ∀ i j, (i, j) ∈ [(Instr.encecb, Instr.dececb), (Instr.dececb, Instr.encecb)] → ∀ (s t : State),
    exec i s = .next t → t.status = 0 →
    ∃ u, exec j { t with src := t.dst } = .next u ∧ u.status = 0 ∧
      ∀ n a, s.srcLen = .val n → a < n → Memory.get u.dst a = Memory.get s.src a

/-! ### The gamma commands (45_gamma.md) -/

/-- ENCGAM and DECGAM on an accepted buffer (R130, R131), in the closed form of R135 (marked derived in the spec): they
complete; offset a < n of DST holds the source byte xored with byte a mod 8 of the encryption of counter cat64(IV, 0) + a/8;
DST at n and beyond is unchanged; L, R, BOUT are discarded, STATUS is 0, and nothing else changes. Refused if SRC_LEN or
DST_LEN holds `novalue`, and, if validation passes with n > 0, if IV, any K[i] or any SRC[0..n-1] does (decision D13, log entry
7; the name of the refusal, log entry 16). STATUS and the discard are decisions D5 and D12 (log entry 18). -/
def Obligations.GammaCommandClosedForm : Prop :=
  (∀ i ∈ [Instr.encgam, Instr.decgam], ∀ (s : State) (n : Nat) (iv : Word) (key : Key) (src : Nat → Byte),
    s.Lengths n n → s.iv = .val iv → s.HoldsKey key → s.HoldsSource n src →
    ∃ dst, exec i s = .next { s with
        dst := dst, l := .novalue, r := .novalue, bout := .novalue, status := 0 } ∧
      (∀ a, a < n → Memory.get dst a = .val (src a ^^^ keystreamByte s.cfg.sbox key iv a)) ∧
      (∀ a, n ≤ a → Memory.get dst a = Memory.get s.dst a)) ∧
  (∀ i ∈ [Instr.encgam, Instr.decgam], ∀ s : State, s.srcLen = .novalue ∨ s.dstLen = .novalue →
    ∃ reg ∈ [Reg.srcLen, Reg.dstLen], getReg reg s = .novalue ∧ exec i s = .refused (.noValue reg)) ∧
  (∀ i ∈ [Instr.encgam, Instr.decgam], ∀ (s : State) (n : Nat), s.Lengths n n → 0 < n →
    (s.iv = .novalue ∨ (∃ k : Fin 8, s.key[k] = .novalue) ∨ ∃ a, a < n ∧ Memory.get s.src a = .novalue) →
    ∃ e, exec i s = .refused e)

/-- R131: DECGAM is ENCGAM in every respect; with the rule's worked example, which names the table of R81. -/
def Obligations.GammaCommandsAreOneFunction : Prop :=
  (∀ s : State, exec .decgam s = exec .encgam s) ∧ encode .decgam = 0x00000007 ∧
  (∀ s : State, s.cfg.sbox = defaultSbox → s.HoldsKey vectorKey → s.iv = .val 0x12345678 → s.Lengths 9 9 →
    readBytes .src s.src 0 9 = .next [0x3C, 0xB9, 0xB7, 0x97, 0x0C, 0x11, 0x98, 0x4E, 0x69] →
    ∃ t, exec .decgam s = .next t ∧
      readBytes .dst t.dst 0 9 = .next [0x59, 0x0A, 0x13, 0x3C, 0x6B, 0xF0, 0xDE, 0x92, 0x20])

/-- R136 (marked derived in the spec): any gamma command after any gamma command, with the bytes it wrote as source, returns
the original bytes, for every length. -/
def Obligations.GammaIsSelfInverse : Prop :=
  ∀ i ∈ [Instr.encgam, Instr.decgam], ∀ j ∈ [Instr.encgam, Instr.decgam], ∀ s t : State,
    exec i s = .next t → t.status = 0 →
    ∃ u, exec j { t with src := t.dst } = .next u ∧ u.status = 0 ∧
      ∀ n a, s.srcLen = .val n → a < n → Memory.get u.dst a = Memory.get s.src a

/-- R138 (marked derived in the spec): under one K and IV, the xor of two outputs is the xor of the two sources, byte by
byte. -/
def Obligations.GammaIsMalleable : Prop :=
  ∀ i ∈ [Instr.encgam, Instr.decgam], ∀ (s t t' : State) (src' : Memory) (n a : Nat) (b b' c c' : Byte),
    exec i s = .next t → exec i { s with src := src' } = .next t' → t.status = 0 → s.srcLen = .val n → a < n →
    Memory.get s.src a = .val b → Memory.get src' a = .val b' →
    Memory.get t.dst a = .val c → Memory.get t'.dst a = .val c' → c ^^^ c' = b ^^^ b'

/-- R135, last part (marked derived in the spec): the output for a shorter length is a prefix of the output for a longer
one. -/
def Obligations.GammaOutputsArePrefixes : Prop :=
  ∀ i ∈ [Instr.encgam, Instr.decgam], ∀ (s t : State) (n m : Nat), exec i s = .next t → t.status = 0 →
    s.srcLen = .val n → m ≤ n →
    ∃ u, exec i { s with srcLen := .val m, dstLen := .val m } = .next u ∧ u.status = 0 ∧
      ∀ a, a < m → Memory.get u.dst a = Memory.get t.dst a

/-- R139 (marked derived in the spec): ENCBLK of cat64(IV, 0) + c leaves in BOUT the keystream word that a gamma command with
the same table, K and IV puts on the bytes of chunk c. -/
def Obligations.EncblkMakesAGammaShard : Prop :=
  ∀ (s : State) (key : Key) (iv : Word) (c : Nat), s.HoldsKey key →
    ∃ t w, exec .encblk { s with bin := .val (cat64 iv 0 + BitVec.ofNat 64 c) } = .next t ∧ t.bout = .val w ∧
      ∀ i ∈ [Instr.encgam, Instr.decgam], ∀ (u v : State) (n a : Nat) (b : Byte),
        u.cfg.sbox = s.cfg.sbox → u.HoldsKey key → u.iv = .val iv → exec i u = .next v → v.status = 0 →
        u.srcLen = .val n → a < n → a / 8 = c → Memory.get u.src a = .val b →
        Memory.get v.dst a = .val (b ^^^ byteOf w (a % 8))

/-- R132 and R133: the initial counter holds IV in its high half and zero in its low half; the increment is one 64-bit
wrapping addition, so the carry out of bit 31 goes into the IV half and the counter wraps to 0 from all ones; with the rules'
examples. A gamma command uses the counter of chunk c for chunk c, the tail's included (last clause: a run of k chunks from
counter x ends with x + k, which is what the tail then uses). -/
def Obligations.CounterStartsAndIncrements : Prop :=
  (∀ iv : Word, (initialCounter iv).toNat = iv.toNat * 2 ^ 32) ∧
  initialCounter 0x12345678 = 0x1234567800000000 ∧ initialCounter 0 = 0 ∧
  (∀ ctr : Block, (nextCounter ctr).toNat = (ctr.toNat + 1) % 2 ^ 64) ∧
  nextCounter 0x12345678FFFFFFFF = 0x1234567900000000 ∧ nextCounter 0xFFFFFFFFFFFFFFFF = 0 ∧
  (∀ (ks : Block → Block) (src dst : Memory) (k c : Nat) (ctr : Block) (p : Block × Memory),
    gammaChunks ks src k c ctr dst = .next p → p.1 = ctr + BitVec.ofNat 64 k)

/-- R140, and the last sentence of R135: below 2^32 chunks the counter of chunk c is cat64(IV, c); chunk 2^32 uses the first
counter of IV + 1. -/
def Obligations.CounterRunsIntoTheNextIv : Prop :=
  (∀ iv c : Word, cat64 iv 0 + BitVec.ofNat 64 c.toNat = cat64 iv c) ∧
  (∀ iv : Word, cat64 iv 0 + BitVec.ofNat 64 (2 ^ 32) = cat64 (iv + 1) 0)

/-! ### Lengths and errors (60_exceptions.md) -/

/-- R123 (a), R137 (a) (marked derived in the spec): with both lengths 0 a buffer command completes whatever K, IV and SRC
hold; it writes STATUS = 0, discards L, R and BOUT, and changes nothing else. STATUS and the discard are decisions D5 and
D12 (log entry 18). -/
def Obligations.EmptyBufferNeedsNoOperands : Prop :=
  ∀ i ∈ [Instr.encecb, Instr.dececb, Instr.encgam, Instr.decgam], ∀ s : State, s.Lengths 0 0 →
    exec i s = .next { s with l := .novalue, r := .novalue, bout := .novalue, status := 0 }

/-- R153: ENCECB and DECECB report LengthNotBlockAligned exactly when SRC_LEN mod 8 is not 0, whatever DST_LEN is; gamma
commands never do. That it is this error where the lengths differ too is R156, decision D7 (log entry 11). -/
def Obligations.UnalignedLengthIsReported : Prop :=
  (∀ i ∈ [Instr.encecb, Instr.dececb], ∀ (s : State) (n m : Nat), s.Lengths n m → n % 8 ≠ 0 →
    exec i s = .next { s with status := statusWord (some .lengthNotBlockAligned) }) ∧
  (∀ i ∈ [Instr.encecb, Instr.dececb], ∀ (s t : State) (n : Nat), s.srcLen = .val n → exec i s = .next t →
    (t.status = statusWord (some .lengthNotBlockAligned) ↔ n % 8 ≠ 0)) ∧
  (∀ i ∈ [Instr.encgam, Instr.decgam], ∀ s t : State, exec i s = .next t →
    t.status ≠ statusWord (some .lengthNotBlockAligned))

/-- R154: gamma commands report code 2 exactly when the lengths differ, ECB commands exactly when SRC_LEN mod 8 = 0 and the
lengths differ; longer and shorter destinations alike. The code's number is decision D5 (log entry 18), the first conjunct
decision D7 (log entry 11). -/
def Obligations.LengthMismatchIsReported : Prop :=
  (∀ i ∈ [Instr.encgam, Instr.decgam], ∀ (s : State) (n m : Nat), s.Lengths n m → n ≠ m →
    exec i s = .next { s with status := 2 }) ∧
  (∀ i ∈ [Instr.encecb, Instr.dececb], ∀ (s : State) (n m : Nat), s.Lengths n m → n % 8 = 0 → n ≠ m →
    exec i s = .next { s with status := 2 }) ∧
  (∀ i ∈ [Instr.encgam, Instr.decgam], ∀ (s t : State) (n m : Nat), s.Lengths n m → exec i s = .next t →
    (t.status = 2 ↔ n ≠ m)) ∧
  (∀ i ∈ [Instr.encecb, Instr.dececb], ∀ (s t : State) (n m : Nat), s.Lengths n m → exec i s = .next t →
    (t.status = 2 ↔ n % 8 = 0 ∧ n ≠ m))

/-- R152: a command that raises E ends with the code of E in STATUS, upper bits 0, has written nothing else, and has read no byte
of SRC: with any other SRC, and with any other K and IV, it does the same. -/
def Obligations.ErrorsArePrecise : Prop :=
  ∀ (i : Instr) (s t : State), exec i s = .next t → t.status ≠ 0 →
    (∃ e, t = { s with status := statusWord (some e) }) ∧ t.status.extractLsb' 2 30 = 0 ∧
    ∀ src key iv, exec i { s with src := src, key := key, iv := iv } = .next { t with src := src, key := key, iv := iv }

/-- R25, R150, R151 (decision D5, log entry 18): every command that completes leaves 0, 1 or 2 in STATUS; ROUND, ENCBLK and
DECBLK leave 0. -/
def Obligations.StatusCodesAreClosed : Prop :=
  ∀ (i : Instr) (s t : State), exec i s = .next t →
    (t.status = 0 ∨ t.status = 1 ∨ t.status = 2) ∧
    (i = .round ∨ i = .encblk ∨ i = .decblk → t.status = 0)

/-! ### Every command -/

/-- R13, R62, R182 (R182 marked derived in the spec; `novalue` is decision D13, log entry 7): a command completes exactly
when what the table of R182 asks is there. -/
def Obligations.CommandsCompleteExactlyWhenReady : Prop := ∀ (i : Instr) (s : State), Completes (exec i s) ↔ Ready i s

/-- R13, R160 (b) (decision D13): a command never faults, and it is refused only for an operand of its row of R62 that holds
`novalue`: a register of that row, or, for a buffer command, a byte of SRC below SRC_LEN. That the refusal names that operand
is the model's own choice, log entry 16. -/
def Obligations.CommandsRefuseOnlyNovalue : Prop :=
  ∀ (i : Instr) (s : State), (∀ e, exec i s ≠ .fault e) ∧
    ∀ e, exec i s = .refused e →
      (∃ reg ∈ readRegs i, e = .noValue reg ∧ getReg reg s = .novalue) ∨
      (isBuffer i ∧ ∃ n a, e = .noValueByte .src a ∧ s.srcLen = .val n ∧ a < n ∧ Memory.get s.src a = .novalue)

/-- The frame of every command (R10, R12, R14, R26, R28, R47, R181): no command writes K, RKEY, BIN, IV, SRC_LEN, DST_LEN, SRC or
the ROM, and DST only by buffer commands; the host's list and replies (log entries 1 and 2) are not touched. -/
def Obligations.CommandsKeepOperands : Prop :=
  ∀ (i : Instr) (s t : State), exec i s = .next t →
    t.key = s.key ∧ t.rkey = s.rkey ∧ t.bin = s.bin ∧ t.iv = s.iv ∧ t.srcLen = s.srcLen ∧ t.dstLen = s.dstLen ∧
    (∀ a, Memory.get t.src a = Memory.get s.src a) ∧ t.cfg = s.cfg ∧ t.pending = s.pending ∧ t.replies = s.replies ∧
    (i = .round ∨ i = .encblk ∨ i = .decblk → ∀ a, Memory.get t.dst a = Memory.get s.dst a)

/-- R14, R190 (decision D12, log entry 18): after success each of L, R, BOUT that the command does not name as an output
holds `novalue`, and each that it names holds a value; after an error all three are as before. -/
def Obligations.SuccessDiscardsUnnamedResults : Prop :=
  ∀ (i : Instr) (s t : State), exec i s = .next t →
    (t.status = 0 →
      (i = .round → t.l.isVal = true ∧ t.r.isVal = true) ∧ (i ≠ .round → t.l = .novalue ∧ t.r = .novalue) ∧
      (i = .encblk ∨ i = .decblk → t.bout.isVal = true) ∧ (i ≠ .encblk ∧ i ≠ .decblk → t.bout = .novalue)) ∧
    (t.status ≠ 0 → t.l = s.l ∧ t.r = s.r ∧ t.bout = s.bout)

/-- R48: a buffer command that succeeds has read each of SRC[0..n-1] (they all held values), has written each of DST[0..n-1]
and no other byte, with values that depend on K, IV and SRC[0..n-1] alone; with n = 0 it touches nothing. One that ends with
an error reads no byte of SRC and writes no byte of DST. -/
def Obligations.BufferFootprint : Prop :=
  ∀ i ∈ [Instr.encecb, Instr.dececb, Instr.encgam, Instr.decgam], ∀ s t : State, exec i s = .next t →
    (∀ a, Memory.get t.src a = Memory.get s.src a) ∧
    (t.status = 0 → ∃ n, s.Lengths n n ∧ s.SourceWritten n ∧
      (∀ a, a < n → (Memory.get t.dst a).isVal = true) ∧
      (∀ a, n ≤ a → Memory.get t.dst a = Memory.get s.dst a) ∧
      (∀ s' t' : State, s'.cfg.sbox = s.cfg.sbox → s'.Lengths n n → s'.key = s.key → (isGamma i → s'.iv = s.iv) →
        (∀ a, a < n → Memory.get s'.src a = Memory.get s.src a) → exec i s' = .next t' →
        ∀ a, a < n → Memory.get t'.dst a = Memory.get t.dst a)) ∧
    (t.status ≠ 0 → t.dst = s.dst ∧ ∀ src, exec i { s with src := src } = .next { t with src := src })

/-- R30, R62: a command is a function of what it reads. Two states that agree on a command's reads (and may differ in everything
else: STATUS, DST, discarded registers, the host's lists, LENW) both complete it, with the same STATUS and the same results. -/
def Obligations.CommandsDependOnlyOnTheirReads : Prop :=
  ∀ (i : Instr) (s s' t : State), AgreeOnReads i s s' → exec i s = .next t →
    ∃ t', exec i s' = .next t' ∧ AgreeOnWrites i t t'

/-- R23: no command reads STATUS. -/
def Obligations.CommandsIgnoreStatus : Prop :=
  ∀ (i : Instr) (s : State) (x : Word), exec i { s with status := x } = exec i s

/-! ### Buffer accesses (20_memory.md) -/

/-- R43: `MemRead` of n bytes, 1 ≤ n ≤ 8, is their little-endian sum, the byte at the lowest offset the least significant; with
the rule's example. -/
def Obligations.MemReadIsLittleEndian : Prop :=
  (∀ (m : Memory) (off n : Nat) (b : Nat → Byte), 1 ≤ n → n ≤ 8 →
    (∀ k, k < n → Memory.get m (off + k) = .val (b k)) →
    ∃ v, memRead m off n = .next v ∧ v.toNat = ∑ k ∈ Finset.range n, 2 ^ (8 * k) * (b k).toNat) ∧
  (∀ m : Memory, readBytes .src m 0 8 = .next [0x10, 0x32, 0x54, 0x76, 0x98, 0xBA, 0xDC, 0xFE] →
    memRead m 0 8 = .next 0xFEDCBA9876543210) ∧
  lo32 0xFEDCBA9876543210 = 0x76543210 ∧ hi32 0xFEDCBA9876543210 = 0xFEDCBA98

/-- R44: `MemWrite` of n bytes, 1 ≤ n ≤ 8, puts bits 8k+7 to 8k of the value at offset off + k, and changes no other byte; with
the rule's example. -/
def Obligations.MemWriteIsLittleEndian : Prop :=
  (∀ (m : Memory) (off n : Nat) (v : Block), 1 ≤ n → n ≤ 8 →
    (∀ k, k < n → Memory.get (memWrite m off n v) (off + k) = .val (BitVec.ofNat 8 (v.toNat / 2 ^ (8 * k)))) ∧
    (∀ a, a < off ∨ off + n ≤ a → Memory.get (memWrite m off n v) a = Memory.get m a)) ∧
  (∀ m : Memory, readBytes .dst (memWrite m 0 8 0x4EE901E5C2D8CA3D) 0 8 =
    .next [0x3D, 0xCA, 0xD8, 0xC2, 0xE5, 0x01, 0xE9, 0x4E])

/-! ### The host's side (10_state.md R15, R32) -/

/-- R15 (decisions D2, D20): the table, register by register (number, width, whether the host may read it, whether it may write
it), the number being the one that finds the register; a host write of a value of the register's width to a writable register
other than CMD completes; the register then holds the value, and every other register, both buffers, the ROM and the replies
are unchanged. -/
def Obligations.HostWriteSetsOneRegister : Prop :=
  (∀ lenw : Nat, ([.cmd, .status, .srcLen, .dstLen, .iv, .rkey, .l, .r, .bin, .bout] : List Reg).map
      (fun reg => (reg.number, reg.width lenw, reg.hostMayRead, reg.hostMayWrite)) =
    [(0, 32, false, true), (1, 32, true, false), (2, lenw, true, true), (3, lenw, true, true), (4, 32, true, true),
     (5, 32, true, true), (6, 32, true, true), (7, 32, true, true), (8, 64, true, true), (9, 64, true, false)]) ∧
  (∀ (lenw : Nat) (i : Fin 8), (Reg.key i).number = 16 + i.val ∧ (Reg.key i).width lenw = 32 ∧
    (Reg.key i).hostMayRead = true ∧ (Reg.key i).hostMayWrite = true) ∧
  (∀ (n : Nat) (reg : Reg), Reg.ofNumber n = some reg ↔ n = reg.number) ∧
  ∀ (s : State) (reg : Reg) (v : Nat) (rest : List HostAction), s.pending = .wr reg.number v :: rest →
    reg.hostMayWrite = true → reg ≠ .cmd → v < 2 ^ reg.width s.cfg.lenw →
    ∃ t, step s = .next t ∧ getReg reg t = .val v ∧ (∀ q, q ≠ reg → getReg q t = getReg q s) ∧
      t.src = s.src ∧ t.dst = s.dst ∧ t.cfg = s.cfg ∧ t.replies = s.replies ∧ t.pending = rest

/-- R15, R13, R160 (c) (decisions D13, D20): a host read of a readable register brings back what it holds and changes nothing else
(the reply is the model's own record, log entry 2); of a register that holds `novalue` it is refused. -/
def Obligations.HostReadBringsTheValue : Prop :=
  ∀ (s : State) (reg : Reg) (rest : List HostAction), s.pending = .rd reg.number :: rest → reg.hostMayRead = true →
    (∀ v, getReg reg s = .val v →
      step s = .next { s with pending := rest, replies := s.replies ++ [.reg reg v] }) ∧
    (getReg reg s = .novalue → step s = .refused (.noValue reg))

/-- R15, R160 (d) (decision D20): a host write to STATUS or BOUT, a host read of CMD and any access to a number that names no
register are refused; and no ill-formed action (these, a value wider than its register, bytes outside a space; log entries 6
and 8) ever gives a next state. -/
def Obligations.HostViolationsAreTurnedAway : Prop :=
  (∀ (s : State) (n v : Nat) (rest : List HostAction), (10 ≤ n ∧ n ≤ 15) ∨ 24 ≤ n →
    (s.pending = .wr n v :: rest → step s = .refused (.noSuchRegister n)) ∧
    (s.pending = .rd n :: rest → step s = .refused (.noSuchRegister n))) ∧
  (∀ (s : State) (v : Nat) (rest : List HostAction),
    (s.pending = .wr 1 v :: rest → step s = .refused (.notWritable .status)) ∧
    (s.pending = .wr 9 v :: rest → step s = .refused (.notWritable .bout)) ∧
    (s.pending = .rd 0 :: rest → step s = .refused (.notReadable .cmd))) ∧
  (∀ (s t : State) (a : HostAction) (rest : List HostAction), s.pending = a :: rest → a.wf s.cfg.lenw = false →
    step s ≠ .next t)

/-- R40, R41, R65, R160 (c) (decisions D9, D13, D19): WRSRC puts each byte at its offset of SRC and changes no other byte of it,
nor anything else; RDDST brings back DST[off..off+n-1] and changes nothing else (the reply is the model's own record, log entry
2); RDDST of a range in which a byte holds `novalue` is refused for such a byte (as a whole: log entry 16). Offsets at or above 2^LENW do not exist (log entry 6). -/
def Obligations.HostReachesTheBuffers : Prop :=
  (∀ (s : State) (off : Nat) (bs : List Byte) (rest : List HostAction), s.pending = .wrSrc off bs :: rest →
    off + bs.length ≤ 2 ^ s.cfg.lenw →
    ∃ src, step s = .next { s with pending := rest, src := src } ∧
      (∀ k, (h : k < bs.length) → Memory.get src (off + k) = .val bs[k]) ∧
      (∀ a, a < off ∨ off + bs.length ≤ a → Memory.get src a = Memory.get s.src a)) ∧
  (∀ (s : State) (off : Nat) (bs : List Byte) (rest : List HostAction), s.pending = .rdDst off bs.length :: rest →
    off + bs.length ≤ 2 ^ s.cfg.lenw → (∀ k, (h : k < bs.length) → Memory.get s.dst (off + k) = .val bs[k]) →
    step s = .next { s with pending := rest, replies := s.replies ++ [.bytes off bs] }) ∧
  (∀ (s : State) (off n k : Nat) (rest : List HostAction), s.pending = .rdDst off n :: rest → off + n ≤ 2 ^ s.cfg.lenw →
    k < n → Memory.get s.dst (off + k) = .novalue →
    ∃ j, j < n ∧ Memory.get s.dst (off + j) = .novalue ∧ step s = .refused (.noValueByte .dst (off + j)))

/-- R32, R180 (decision D14): in the reset state, and after a reset from any state, STATUS is 0 and every other register and
every byte of both buffers holds `novalue`; the reset state has the table of R81. A reset keeps the ROM, and the host's own
lists (log entry 5). -/
def Obligations.ResetLeavesNovalue : Prop :=
  (∀ reg : Reg, reg ≠ .status → getReg reg State.reset = .novalue) ∧ getReg .status State.reset = .val 0 ∧
  (∀ a, Memory.get State.reset.src a = .novalue ∧ Memory.get State.reset.dst a = .novalue) ∧
  State.reset.cfg.sbox = defaultSbox ∧
  (∀ (s : State) (rest : List HostAction), s.pending = .reset :: rest → ∃ t, step s = .next t ∧
    (∀ reg : Reg, getReg reg t = getReg reg State.reset) ∧
    (∀ a, Memory.get t.src a = .novalue ∧ Memory.get t.dst a = .novalue) ∧
    t.cfg = s.cfg ∧ t.pending = rest ∧ t.replies = s.replies)

/-! ### Whole-machine rules -/

/-- The reset state meets the invariant. -/
def Obligations.ResetMeetsTheInvariant : Prop := State.reset.Inv

/-- Every step keeps the invariant: a legal table and LENW (R5, R80), canonical buffers inside their spaces (R28), lengths below
2^LENW (R26), STATUS 0, 1 or 2 (R25). -/
def Obligations.EveryStepKeepsTheInvariant : Prop := ∀ s t : State, s.Inv → step s = .next t → t.Inv

/-- R27: "No command and no host access writes" the ROM; LENW is fixed for the instance (R5). -/
def Obligations.RomAndWidthNeverChange : Prop := ∀ s t : State, step s = .next t → t.cfg = s.cfg

/-- Who may change what (R10, R12, R24, R25, R28, R40, R41, R180): K, RKEY, BIN, IV, SRC_LEN, DST_LEN only a host write to
that very register, or reset; STATUS and BOUT only a write to CMD, or reset; L and R a host write to them, a write to CMD,
or reset; SRC only WRSRC, or reset; DST only the CMD write of a buffer command's word, or reset. The host's buffer accesses
are those of log entry 20. -/
def Obligations.EveryChangeHasItsCause : Prop :=
  ∀ s t : State, step s = .next t →
    (∀ reg, getReg reg t ≠ getReg reg s → ∃ a rest, s.pending = a :: rest ∧
      (a = .reset ∨ (∃ v, a = .wr reg.number v ∧ reg.hostMayWrite = true) ∨
       (reg = .status ∨ reg = .bout ∨ reg = .l ∨ reg = .r) ∧ ∃ v, a = .wr 0 v)) ∧
    (∀ a, Memory.get t.src a ≠ Memory.get s.src a → ∃ x rest, s.pending = x :: rest ∧
      (x = .reset ∨ ∃ off bs, x = .wrSrc off bs ∧ off ≤ a ∧ a < off + bs.length)) ∧
    (∀ a, Memory.get t.dst a ≠ Memory.get s.dst a → ∃ x rest, s.pending = x :: rest ∧
      (x = .reset ∨ ∃ i, isBuffer i ∧ x = .wr 0 (encode i).toNat))

/-- R53, R170: a step of one instance leaves every other instance as it was, two instances' steps may come in either order
with the same result, and instances that share a table go on sharing it (decision D21; the list of instances is the model's,
log entry 12). -/
def Obligations.InstancesDoNotInteract : Prop :=
  ∀ (is js : Instances) (j k : Nat), j ≠ k →
    (stepInstance j is = .next js → js[k]? = is[k]? ∧ js.length = is.length ∧ (is.ShareSbox → js.ShareSbox)) ∧
    (andThen (stepInstance j is) (stepInstance k) = .next js ↔ andThen (stepInstance k is) (stepInstance j) = .next js)
end

