-- ==== Sys2Proof/Laws/State.lean ====
section
/-! SUPPORT. The fields of a state after each named update: one lemma a field, so that no later proof unfolds an update. -/

namespace Sys2Proof.Machine

section
variable (e : LengthError) (s : State)

@[simp] theorem raiseError_cfg : (raiseError e s).cfg = s.cfg := rfl
@[simp] theorem raiseError_key : (raiseError e s).key = s.key := rfl
@[simp] theorem raiseError_rkey : (raiseError e s).rkey = s.rkey := rfl
@[simp] theorem raiseError_l : (raiseError e s).l = s.l := rfl
@[simp] theorem raiseError_r : (raiseError e s).r = s.r := rfl
@[simp] theorem raiseError_bin : (raiseError e s).bin = s.bin := rfl
@[simp] theorem raiseError_bout : (raiseError e s).bout = s.bout := rfl
@[simp] theorem raiseError_iv : (raiseError e s).iv = s.iv := rfl
@[simp] theorem raiseError_srcLen : (raiseError e s).srcLen = s.srcLen := rfl
@[simp] theorem raiseError_dstLen : (raiseError e s).dstLen = s.dstLen := rfl
@[simp] theorem raiseError_status : (raiseError e s).status = statusWord (some e) := rfl
@[simp] theorem raiseError_src : (raiseError e s).src = s.src := rfl
@[simp] theorem raiseError_dst : (raiseError e s).dst = s.dst := rfl
@[simp] theorem raiseError_pending : (raiseError e s).pending = s.pending := rfl
@[simp] theorem raiseError_replies : (raiseError e s).replies = s.replies := rfl

end

section
variable (p : Halves) (s : State)

@[simp] theorem roundDone_cfg : (roundDone p s).cfg = s.cfg := rfl
@[simp] theorem roundDone_key : (roundDone p s).key = s.key := rfl
@[simp] theorem roundDone_rkey : (roundDone p s).rkey = s.rkey := rfl
@[simp] theorem roundDone_l : (roundDone p s).l = .val p.1 := rfl
@[simp] theorem roundDone_r : (roundDone p s).r = .val p.2 := rfl
@[simp] theorem roundDone_bin : (roundDone p s).bin = s.bin := rfl
@[simp] theorem roundDone_bout : (roundDone p s).bout = .novalue := rfl
@[simp] theorem roundDone_iv : (roundDone p s).iv = s.iv := rfl
@[simp] theorem roundDone_srcLen : (roundDone p s).srcLen = s.srcLen := rfl
@[simp] theorem roundDone_dstLen : (roundDone p s).dstLen = s.dstLen := rfl
@[simp] theorem roundDone_status : (roundDone p s).status = 0 := rfl
@[simp] theorem roundDone_src : (roundDone p s).src = s.src := rfl
@[simp] theorem roundDone_dst : (roundDone p s).dst = s.dst := rfl
@[simp] theorem roundDone_pending : (roundDone p s).pending = s.pending := rfl
@[simp] theorem roundDone_replies : (roundDone p s).replies = s.replies := rfl

end

section
variable (b : Block) (s : State)

@[simp] theorem blockDone_cfg : (blockDone b s).cfg = s.cfg := rfl
@[simp] theorem blockDone_key : (blockDone b s).key = s.key := rfl
@[simp] theorem blockDone_rkey : (blockDone b s).rkey = s.rkey := rfl
@[simp] theorem blockDone_l : (blockDone b s).l = .novalue := rfl
@[simp] theorem blockDone_r : (blockDone b s).r = .novalue := rfl
@[simp] theorem blockDone_bin : (blockDone b s).bin = s.bin := rfl
@[simp] theorem blockDone_bout : (blockDone b s).bout = .val b := rfl
@[simp] theorem blockDone_iv : (blockDone b s).iv = s.iv := rfl
@[simp] theorem blockDone_srcLen : (blockDone b s).srcLen = s.srcLen := rfl
@[simp] theorem blockDone_dstLen : (blockDone b s).dstLen = s.dstLen := rfl
@[simp] theorem blockDone_status : (blockDone b s).status = 0 := rfl
@[simp] theorem blockDone_src : (blockDone b s).src = s.src := rfl
@[simp] theorem blockDone_dst : (blockDone b s).dst = s.dst := rfl
@[simp] theorem blockDone_pending : (blockDone b s).pending = s.pending := rfl
@[simp] theorem blockDone_replies : (blockDone b s).replies = s.replies := rfl

end

section
variable (d : Memory) (s : State)

@[simp] theorem bufferDone_cfg : (bufferDone d s).cfg = s.cfg := rfl
@[simp] theorem bufferDone_key : (bufferDone d s).key = s.key := rfl
@[simp] theorem bufferDone_rkey : (bufferDone d s).rkey = s.rkey := rfl
@[simp] theorem bufferDone_l : (bufferDone d s).l = .novalue := rfl
@[simp] theorem bufferDone_r : (bufferDone d s).r = .novalue := rfl
@[simp] theorem bufferDone_bin : (bufferDone d s).bin = s.bin := rfl
@[simp] theorem bufferDone_bout : (bufferDone d s).bout = .novalue := rfl
@[simp] theorem bufferDone_iv : (bufferDone d s).iv = s.iv := rfl
@[simp] theorem bufferDone_srcLen : (bufferDone d s).srcLen = s.srcLen := rfl
@[simp] theorem bufferDone_dstLen : (bufferDone d s).dstLen = s.dstLen := rfl
@[simp] theorem bufferDone_status : (bufferDone d s).status = 0 := rfl
@[simp] theorem bufferDone_src : (bufferDone d s).src = s.src := rfl
@[simp] theorem bufferDone_dst : (bufferDone d s).dst = d := rfl
@[simp] theorem bufferDone_pending : (bufferDone d s).pending = s.pending := rfl
@[simp] theorem bufferDone_replies : (bufferDone d s).replies = s.replies := rfl

end

section
variable (a : Reply) (s : State)

@[simp] theorem withReply_cfg : (withReply a s).cfg = s.cfg := rfl
@[simp] theorem withReply_key : (withReply a s).key = s.key := rfl
@[simp] theorem withReply_rkey : (withReply a s).rkey = s.rkey := rfl
@[simp] theorem withReply_l : (withReply a s).l = s.l := rfl
@[simp] theorem withReply_r : (withReply a s).r = s.r := rfl
@[simp] theorem withReply_bin : (withReply a s).bin = s.bin := rfl
@[simp] theorem withReply_bout : (withReply a s).bout = s.bout := rfl
@[simp] theorem withReply_iv : (withReply a s).iv = s.iv := rfl
@[simp] theorem withReply_srcLen : (withReply a s).srcLen = s.srcLen := rfl
@[simp] theorem withReply_dstLen : (withReply a s).dstLen = s.dstLen := rfl
@[simp] theorem withReply_status : (withReply a s).status = s.status := rfl
@[simp] theorem withReply_src : (withReply a s).src = s.src := rfl
@[simp] theorem withReply_dst : (withReply a s).dst = s.dst := rfl
@[simp] theorem withReply_pending : (withReply a s).pending = s.pending := rfl
@[simp] theorem withReply_replies : (withReply a s).replies = s.replies ++ [a] := rfl

end

section
variable (off : Nat) (bs : List Byte) (s : State)

@[simp] theorem putSrc_cfg : (putSrc off bs s).cfg = s.cfg := rfl
@[simp] theorem putSrc_key : (putSrc off bs s).key = s.key := rfl
@[simp] theorem putSrc_rkey : (putSrc off bs s).rkey = s.rkey := rfl
@[simp] theorem putSrc_l : (putSrc off bs s).l = s.l := rfl
@[simp] theorem putSrc_r : (putSrc off bs s).r = s.r := rfl
@[simp] theorem putSrc_bin : (putSrc off bs s).bin = s.bin := rfl
@[simp] theorem putSrc_bout : (putSrc off bs s).bout = s.bout := rfl
@[simp] theorem putSrc_iv : (putSrc off bs s).iv = s.iv := rfl
@[simp] theorem putSrc_srcLen : (putSrc off bs s).srcLen = s.srcLen := rfl
@[simp] theorem putSrc_dstLen : (putSrc off bs s).dstLen = s.dstLen := rfl
@[simp] theorem putSrc_status : (putSrc off bs s).status = s.status := rfl
@[simp] theorem putSrc_src : (putSrc off bs s).src = Memory.setBytes s.src off bs := rfl
@[simp] theorem putSrc_dst : (putSrc off bs s).dst = s.dst := rfl
@[simp] theorem putSrc_pending : (putSrc off bs s).pending = s.pending := rfl
@[simp] theorem putSrc_replies : (putSrc off bs s).replies = s.replies := rfl

end

section
variable (as : List HostAction) (s : State)

@[simp] theorem withPending_cfg : (withPending as s).cfg = s.cfg := rfl
@[simp] theorem withPending_key : (withPending as s).key = s.key := rfl
@[simp] theorem withPending_rkey : (withPending as s).rkey = s.rkey := rfl
@[simp] theorem withPending_l : (withPending as s).l = s.l := rfl
@[simp] theorem withPending_r : (withPending as s).r = s.r := rfl
@[simp] theorem withPending_bin : (withPending as s).bin = s.bin := rfl
@[simp] theorem withPending_bout : (withPending as s).bout = s.bout := rfl
@[simp] theorem withPending_iv : (withPending as s).iv = s.iv := rfl
@[simp] theorem withPending_srcLen : (withPending as s).srcLen = s.srcLen := rfl
@[simp] theorem withPending_dstLen : (withPending as s).dstLen = s.dstLen := rfl
@[simp] theorem withPending_status : (withPending as s).status = s.status := rfl
@[simp] theorem withPending_src : (withPending as s).src = s.src := rfl
@[simp] theorem withPending_dst : (withPending as s).dst = s.dst := rfl
@[simp] theorem withPending_pending : (withPending as s).pending = as := rfl
@[simp] theorem withPending_replies : (withPending as s).replies = s.replies := rfl

end

section
variable (s : State)

@[simp] theorem coreReset_cfg : (coreReset s).cfg = s.cfg := rfl
@[simp] theorem coreReset_key : (coreReset s).key = State.reset.key := rfl
@[simp] theorem coreReset_rkey : (coreReset s).rkey = State.reset.rkey := rfl
@[simp] theorem coreReset_l : (coreReset s).l = State.reset.l := rfl
@[simp] theorem coreReset_r : (coreReset s).r = State.reset.r := rfl
@[simp] theorem coreReset_bin : (coreReset s).bin = State.reset.bin := rfl
@[simp] theorem coreReset_bout : (coreReset s).bout = State.reset.bout := rfl
@[simp] theorem coreReset_iv : (coreReset s).iv = State.reset.iv := rfl
@[simp] theorem coreReset_srcLen : (coreReset s).srcLen = State.reset.srcLen := rfl
@[simp] theorem coreReset_dstLen : (coreReset s).dstLen = State.reset.dstLen := rfl
@[simp] theorem coreReset_status : (coreReset s).status = State.reset.status := rfl
@[simp] theorem coreReset_src : (coreReset s).src = State.reset.src := rfl
@[simp] theorem coreReset_dst : (coreReset s).dst = State.reset.dst := rfl
@[simp] theorem coreReset_pending : (coreReset s).pending = s.pending := rfl
@[simp] theorem coreReset_replies : (coreReset s).replies = s.replies := rfl

end

section
variable (reg : Reg) (v : Nat) (s : State)

/-! A host write reaches operand registers only. -/

@[simp] theorem putReg_cfg : (putReg reg v s).cfg = s.cfg := by cases reg <;> rfl
@[simp] theorem putReg_bout : (putReg reg v s).bout = s.bout := by cases reg <;> rfl
@[simp] theorem putReg_status : (putReg reg v s).status = s.status := by cases reg <;> rfl
@[simp] theorem putReg_src : (putReg reg v s).src = s.src := by cases reg <;> rfl
@[simp] theorem putReg_dst : (putReg reg v s).dst = s.dst := by cases reg <;> rfl
@[simp] theorem putReg_pending : (putReg reg v s).pending = s.pending := by cases reg <;> rfl
@[simp] theorem putReg_replies : (putReg reg v s).replies = s.replies := by cases reg <;> rfl

end

section
variable (i : Instr) (s : State)

/-! The set-up of a command reaches its operand registers only. -/

@[simp] theorem minimalSetup_cfg : (minimalSetup i s).cfg = s.cfg := by cases i <;> rfl
@[simp] theorem minimalSetup_bout : (minimalSetup i s).bout = s.bout := by cases i <;> rfl
@[simp] theorem minimalSetup_status : (minimalSetup i s).status = s.status := by cases i <;> rfl
@[simp] theorem minimalSetup_src : (minimalSetup i s).src = s.src := by cases i <;> rfl
@[simp] theorem minimalSetup_dst : (minimalSetup i s).dst = s.dst := by cases i <;> rfl
@[simp] theorem minimalSetup_pending : (minimalSetup i s).pending = s.pending := by cases i <;> rfl
@[simp] theorem minimalSetup_replies : (minimalSetup i s).replies = s.replies := by cases i <;> rfl

end

end Sys2Proof.Machine
end

