-- ==== Sys2Proof/Laws/Outcome.lean ====
section
/-! SUPPORT. What a sequence of reads can answer: one inversion lemma for each read, cited instead of unfolding it. -/

namespace Sys2Proof.Machine

section
variable {α β : Type}

@[simp] theorem andThen_next (a : α) (f : α → Res β) : andThen (.next a) f = f a := rfl

@[simp] theorem andThen_fault (e : Fault) (f : α → Res β) : andThen (.fault e) f = .fault e := rfl

@[simp] theorem andThen_refused (e : Refusal) (f : α → Res β) : andThen (.refused e) f = .refused e := rfl

theorem andThen_eq_next {x : Res α} {f : α → Res β} {b : β} :
    andThen x f = .next b ↔ ∃ a, x = .next a ∧ f a = .next b := by
  cases x <;> simp

theorem andThen_eq_fault {x : Res α} {f : α → Res β} {e : Fault} :
    andThen x f = .fault e ↔ x = .fault e ∨ ∃ a, x = .next a ∧ f a = .fault e := by
  cases x <;> simp

theorem andThen_eq_refused {x : Res α} {f : α → Res β} {e : Refusal} :
    andThen x f = .refused e ↔ x = .refused e ∨ ∃ a, x = .next a ∧ f a = .refused e := by
  cases x <;> simp

theorem andThen_assoc {γ : Type} (x : Res α) (f : α → Res β) (h : β → Res γ) :
    andThen (andThen x f) h = andThen x fun a => andThen (f a) h := by
  cases x <;> rfl

@[simp] theorem isVal_val (a : α) : (Held.val a).isVal = true := rfl

@[simp] theorem isVal_novalue : (Held.novalue : Held α).isVal = false := rfl

theorem isVal_iff {h : Held α} : h.isVal = true ↔ ∃ a, h = .val a := by
  cases h <;> simp

theorem isVal_eq_false {h : Held α} : h.isVal = false ↔ h = .novalue := by
  cases h <;> simp

end

theorem needByte_eq_next {sp : Space} {m : Memory} {off : Nat} {b : Byte} :
    needByte sp m off = .next b ↔ Memory.get m off = .val b := by
  unfold needByte; cases Memory.get m off <;> simp

@[simp] theorem needByte_ne_fault (sp : Space) (m : Memory) (off : Nat) (e : Fault) : needByte sp m off ≠ .fault e := by
  unfold needByte; cases Memory.get m off <;> simp

theorem needByte_eq_refused {sp : Space} {m : Memory} {off : Nat} {e : Refusal} :
    needByte sp m off = .refused e ↔ Memory.get m off = .novalue ∧ e = .noValueByte sp off := by
  unfold needByte; cases Memory.get m off <;> simp [eq_comm]

/-! ### Registers -/

section
variable {α : Type}

@[simp] theorem need_val (reg : Reg) (a : α) : need reg (.val a) = .next a := rfl

@[simp] theorem need_novalue (reg : Reg) : need reg (.novalue : Held α) = .refused (.noValue reg) := rfl

theorem need_eq_next {reg : Reg} {h : Held α} {a : α} : need reg h = .next a ↔ h = .val a := by
  cases h <;> simp

@[simp] theorem need_ne_fault (reg : Reg) (h : Held α) (e : Fault) : need reg h ≠ .fault e := by
  cases h <;> simp

theorem need_eq_refused {reg : Reg} {h : Held α} {e : Refusal} :
    need reg h = .refused e ↔ h = .novalue ∧ e = .noValue reg := by
  cases h <;> simp [eq_comm]

end

/-- The key is read exactly when all eight words hold a value, and it is those values. -/
theorem needKey_eq_next {ks : Vector (Held Word) 8} {k : Key} :
    needKey ks = .next k ↔ ∀ i : Fin 8, ks[i] = .val k[i] := by
  simp only [needKey, andThen_eq_next, need_eq_next]
  constructor
  · rintro ⟨k0, h0, k1, h1, k2, h2, k3, h3, k4, h4, k5, h5, k6, h6, k7, h7, h⟩ i
    cases h
    match i with
    | 0 => exact h0
    | 1 => exact h1
    | 2 => exact h2
    | 3 => exact h3
    | 4 => exact h4
    | 5 => exact h5
    | 6 => exact h6
    | 7 => exact h7
  · intro h
    refine ⟨k[0], h 0, k[1], h 1, k[2], h 2, k[3], h 3, k[4], h 4, k[5], h 5, k[6], h 6, k[7], h 7, ?_⟩
    congr 1
    ext i hi
    have : i = 0 ∨ i = 1 ∨ i = 2 ∨ i = 3 ∨ i = 4 ∨ i = 5 ∨ i = 6 ∨ i = 7 := by omega
    rcases this with rfl | rfl | rfl | rfl | rfl | rfl | rfl | rfl <;> rfl

@[simp] theorem needKey_ne_fault (ks : Vector (Held Word) 8) (e : Fault) : needKey ks ≠ .fault e := by
  simp [needKey, andThen_eq_fault]

/-- The key is refused only for a word that holds `novalue`. -/
theorem needKey_eq_refused {ks : Vector (Held Word) 8} {e : Refusal} (h : needKey ks = .refused e) :
    ∃ i : Fin 8, ks[i] = .novalue ∧ e = .noValue (.key i) := by
  simp only [needKey, andThen_eq_refused, need_eq_refused, need_eq_next] at h
  rcases h with h | ⟨_, -, h | ⟨_, -, h | ⟨_, -, h | ⟨_, -, h | ⟨_, -, h | ⟨_, -, h | ⟨_, -, h | ⟨_, -, h⟩⟩⟩⟩⟩⟩⟩⟩
  · exact ⟨0, h⟩
  · exact ⟨1, h⟩
  · exact ⟨2, h⟩
  · exact ⟨3, h⟩
  · exact ⟨4, h⟩
  · exact ⟨5, h⟩
  · exact ⟨6, h⟩
  · exact ⟨7, h⟩
  · cases h

/-- A key whose words are all written can be read. -/
theorem needKey_of_written {ks : Vector (Held Word) 8} (h : ∀ i : Fin 8, ks[i].isVal = true) :
    ∃ k, needKey ks = .next k := by
  cases hk : needKey ks with
  | next k => exact ⟨k, rfl⟩
  | fault e => exact absurd hk (by simp)
  | refused e =>
    obtain ⟨i, hi, -⟩ := needKey_eq_refused hk
    have := h i
    rw [hi] at this
    cases this

/-! ### Bytes -/

/-- Bytes are read exactly when every one of them holds a value, and they are those values in order. -/
theorem readBytes_eq_next {sp : Space} {m : Memory} {off n : Nat} {bs : List Byte} :
    readBytes sp m off n = .next bs ↔
      bs.length = n ∧ ∀ i, (h : i < bs.length) → Memory.get m (off + i) = .val bs[i] := by
  induction n generalizing off bs with
  | zero =>
    cases bs <;> simp [readBytes]
  | succ n ih =>
    simp only [readBytes, andThen_eq_next, needByte_eq_next, ih]
    constructor
    · rintro ⟨b, hb, bs', ⟨hl, hbs⟩, h⟩
      cases h
      refine ⟨by simp [hl], fun i hi => ?_⟩
      cases i with
      | zero => simpa using hb
      | succ i => simpa [Nat.add_assoc, Nat.add_comm 1] using hbs i (by simpa using hi)
    · rintro ⟨hl, h⟩
      cases bs with
      | nil => simp at hl
      | cons b bs' =>
        refine ⟨b, h 0 (by simp), bs', ⟨by simpa using hl, fun i hi => ?_⟩, rfl⟩
        rw [show off + 1 + i = off + (i + 1) by omega]
        exact h (i + 1) (by simpa using hi)

@[simp] theorem readBytes_ne_fault (sp : Space) (m : Memory) (off n : Nat) (e : Fault) :
    readBytes sp m off n ≠ .fault e := by
  induction n generalizing off with
  | zero => simp [readBytes]
  | succ n ih => simp [readBytes, andThen_eq_fault, ih]

/-- Bytes are refused only for one among them that holds `novalue`. -/
theorem readBytes_eq_refused {sp : Space} {m : Memory} {off n : Nat} {e : Refusal}
    (h : readBytes sp m off n = .refused e) :
    ∃ a, off ≤ a ∧ a < off + n ∧ Memory.get m a = .novalue ∧ e = .noValueByte sp a := by
  induction n generalizing off with
  | zero => simp [readBytes] at h
  | succ n ih =>
    simp only [readBytes, andThen_eq_refused, needByte_eq_refused, reduceCtorEq, and_false, exists_false, or_false] at h
    rcases h with ⟨h, he⟩ | ⟨b, -, h⟩
    · exact ⟨off, by omega, by omega, h, he⟩
    · obtain ⟨a, h1, h2, h3, h4⟩ := ih h
      exact ⟨a, by omega, by omega, h3, h4⟩

/-- Bytes that are all written can be read. -/
theorem readBytes_of_written {sp : Space} {m : Memory} {off n : Nat}
    (h : ∀ a, off ≤ a → a < off + n → (Memory.get m a).isVal = true) : ∃ bs, readBytes sp m off n = .next bs := by
  cases hk : readBytes sp m off n with
  | next k => exact ⟨k, rfl⟩
  | fault e => exact absurd hk (by simp)
  | refused e =>
    obtain ⟨a, h1, h2, h3, -⟩ := readBytes_eq_refused hk
    exact absurd (h a h1 h2) (by simp [h3])

theorem memRead_eq_next {m : Memory} {off n : Nat} {v : Block} :
    memRead m off n = .next v ↔ ∃ bs, readBytes .src m off n = .next bs ∧ v = leValue bs := by
  simp only [memRead, andThen_eq_next, Host.Outcome.next.injEq]
  exact exists_congr fun bs => and_congr_right fun _ => eq_comm

@[simp] theorem memRead_ne_fault (m : Memory) (off n : Nat) (e : Fault) : memRead m off n ≠ .fault e := by
  simp [memRead, andThen_eq_fault]

theorem memRead_eq_refused {m : Memory} {off n : Nat} {e : Refusal} :
    memRead m off n = .refused e ↔ readBytes .src m off n = .refused e := by
  simp [memRead, andThen_eq_refused]

end Sys2Proof.Machine
end

