-- ==== Sys2Proof/Laws/Memory.lean ====
section
/-! SUPPORT. Buffers: a read after a write, the canonical form, the place of every byte. -/

namespace Sys2Proof.Machine

@[simp] theorem get_nil (a : Nat) : Memory.get [] a = .novalue := rfl

@[simp] theorem get_set_same (m : Memory) (off : Nat) (b : Byte) : Memory.get (Memory.set m off b) off = .val b := by
  induction m with
  | nil => simp [Memory.set, Memory.get]
  | cons c rest ih =>
    unfold Memory.set
    split
    · simp [Memory.get]
    · split
      · simp [Memory.get]
      · rename_i _ hne; simp [Memory.get, hne, ih]

theorem get_set_other {m : Memory} {off a : Nat} (b : Byte) (h : a ≠ off) :
    Memory.get (Memory.set m off b) a = Memory.get m a := by
  induction m with
  | nil => simp [Memory.set, Memory.get, Ne.symm h]
  | cons c rest ih =>
    unfold Memory.set
    split
    · simp [Memory.get, Ne.symm h]
    · split
      · rename_i _ he; subst he; simp [Memory.get, Ne.symm h]
      · simp [Memory.get, ih]

/-- A byte after a write of bytes: the written one inside their range, the old one outside it. -/
theorem get_setBytes (m : Memory) (off : Nat) (bs : List Byte) (a : Nat) :
    Memory.get (Memory.setBytes m off bs) a =
      if h : off ≤ a ∧ a < off + bs.length then .val (bs[a - off]'(by omega)) else Memory.get m a := by
  induction bs generalizing m off with
  | nil => simp [Memory.setBytes]
  | cons b bs ih =>
    rw [Memory.setBytes, ih]
    by_cases h1 : a = off
    · subst h1
      simp
    · by_cases h2 : off + 1 ≤ a ∧ a < off + 1 + bs.length
      · have h3 : off ≤ a ∧ a < off + (b :: bs).length := by simp; omega
        rw [dif_pos h2, dif_pos h3]
        have : a - off = (a - (off + 1)) + 1 := by omega
        simp [this]
      · have h3 : ¬(off ≤ a ∧ a < off + (b :: bs).length) := by simp; omega
        rw [dif_neg h2, dif_neg h3, get_set_other b h1]

theorem mem_set {m : Memory} {off : Nat} {b : Byte} {c : Host.Cell} (h : c ∈ Memory.set m off b) :
    c = (off, b) ∨ c ∈ m := by
  induction m with
  | nil => simpa [Memory.set] using h
  | cons d rest ih =>
    unfold Memory.set at h
    split at h
    · simpa using h
    · split at h
      · simp only [List.mem_cons] at h ⊢; tauto
      · simp only [List.mem_cons] at h ⊢
        rcases h with h | h
        · exact .inr (.inl h)
        · rcases ih h with h | h
          · exact .inl h
          · exact .inr (.inr h)

/-- Writing a byte keeps the canonical form. -/
theorem wf_set {m : Memory} (off : Nat) (b : Byte) (h : Memory.wf m) : Memory.wf (Memory.set m off b) := by
  induction m with
  | nil => simp [Memory.set, Memory.wf]
  | cons c rest ih =>
    have hr := List.pairwise_cons.mp h
    unfold Memory.set
    split
    · rename_i hlt
      refine List.pairwise_cons.mpr ⟨fun d hd => ?_, h⟩
      rcases List.mem_cons.mp hd with rfl | hd
      · exact hlt
      · exact Nat.lt_trans hlt (hr.1 d hd)
    · split
      · rename_i he
        exact List.pairwise_cons.mpr ⟨fun d hd => he ▸ hr.1 d hd, hr.2⟩
      · rename_i h1 h2
        refine List.pairwise_cons.mpr ⟨fun d hd => ?_, ih hr.2⟩
        rcases mem_set hd with rfl | hd
        · show c.1 < off; omega
        · exact hr.1 d hd

/-- Writing bytes keeps the canonical form. -/
theorem wf_setBytes {m : Memory} (off : Nat) (bs : List Byte) (h : Memory.wf m) :
    Memory.wf (Memory.setBytes m off bs) := by
  induction bs generalizing m off with
  | nil => exact h
  | cons b bs ih => exact ih (off + 1) (wf_set off b h)

theorem within_setBytes {lenw : Nat} {m : Memory} {off : Nat} {bs : List Byte} (h : Memory.Within lenw m)
    (hb : bs = [] ∨ off + bs.length ≤ 2 ^ lenw) : Memory.Within lenw (Memory.setBytes m off bs) := by
  induction bs generalizing m off with
  | nil => exact h
  | cons b bs ih =>
    have hb : off + (bs.length + 1) ≤ 2 ^ lenw := by simpa using hb
    refine ih (fun c hc => ?_) (by omega)
    rcases mem_set hc with rfl | hc
    · show off < 2 ^ lenw; omega
    · exact h c hc

theorem inSpace_iff {lenw off n : Nat} : inSpace lenw off n = true ↔ n = 0 ∨ off + n ≤ 2 ^ lenw := by
  simp [inSpace]

/-! ### Little-endian bytes -/

@[simp] theorem leBytes_length (v : Block) (n : Nat) : (leBytes v n).length = n := by
  induction n generalizing v with
  | zero => rfl
  | succ n ih => simp [leBytes, ih]

/-- Shifting a block right by a byte moves its bytes down by one. -/
theorem byteOf_shift (v : Block) (i : Nat) : byteOf (v >>> 8) i = byteOf v (i + 1) := by
  ext k hk
  simp only [byteOf, BitVec.getElem_extractLsb', BitVec.getLsbD_ushiftRight]
  congr 1
  omega

theorem getElem_leBytes (v : Block) (n i : Nat) (h : i < (leBytes v n).length) : (leBytes v n)[i] = byteOf v i := by
  induction n generalizing v i with
  | zero => simp at h
  | succ n ih =>
    cases i with
    | zero => simp [leBytes]
    | succ i =>
      simp only [leBytes, List.getElem_cons_succ, ih]
      exact byteOf_shift v i

/-- A byte after `MemWrite`: byte a - off of the value inside the n bytes, the old one outside (R44). -/
theorem get_memWrite (dst : Memory) (off n : Nat) (v : Block) (a : Nat) :
    Memory.get (memWrite dst off n v) a =
      if off ≤ a ∧ a < off + n then .val (byteOf v (a - off)) else Memory.get dst a := by
  rw [memWrite, get_setBytes]
  simp only [leBytes_length, getElem_leBytes]
  split <;> rfl

theorem wf_memWrite {dst : Memory} (off n : Nat) (v : Block) (h : Memory.wf dst) :
    Memory.wf (memWrite dst off n v) :=
  wf_setBytes _ _ h

theorem within_memWrite {lenw : Nat} {dst : Memory} {off n : Nat} (v : Block) (h : Memory.Within lenw dst)
    (hb : off + n ≤ 2 ^ lenw) : Memory.Within lenw (memWrite dst off n v) :=
  within_setBytes h (.inr (by simpa using hb))

end Sys2Proof.Machine
end

