-- ==== Sys2Proof/Laws/Bytes.lean ====
section
/-! SUPPORT. The bytes of a block: little-endian values, masks and xor, byte by byte. -/

namespace Sys2Proof.Machine

/-- Bit k of byte i is bit 8i + k of the block. -/
theorem getLsbD_byteOf (b : Block) (i k : Nat) (hk : k < 8) : (byteOf b i).getLsbD k = b.getLsbD (8 * i + k) := by
  simp [byteOf, hk]

/-- A block is its eight bytes. -/
theorem block_ext_bytes {a b : Block} (h : ∀ i, i < 8 → byteOf a i = byteOf b i) : a = b := by
  apply BitVec.eq_of_getLsbD_eq
  intro k hk
  have hb := congrArg (fun x => x.getLsbD (k % 8)) (h (k / 8) (by omega))
  simp only [getLsbD_byteOf _ _ _ (Nat.mod_lt k (by decide : 8 > 0))] at hb
  rwa [show 8 * (k / 8) + k % 8 = k by omega] at hb

@[simp] theorem byteOf_xor (a b : Block) (i : Nat) : byteOf (a ^^^ b) i = byteOf a i ^^^ byteOf b i := by
  apply BitVec.eq_of_getLsbD_eq
  intro k hk
  simp [getLsbD_byteOf _ _ _ hk]

@[simp] theorem byteOf_or (a b : Block) (i : Nat) : byteOf (a ||| b) i = byteOf a i ||| byteOf b i := by
  apply BitVec.eq_of_getLsbD_eq
  intro k hk
  simp [getLsbD_byteOf _ _ _ hk]

@[simp] theorem byteOf_zero (i : Nat) : byteOf 0#64 i = 0#8 := by
  apply BitVec.eq_of_getLsbD_eq
  intro k hk
  simp only [getLsbD_byteOf _ _ _ hk, BitVec.getLsbD_zero]

@[simp] theorem byteOf_setWidth_zero (b : Byte) : byteOf (b.setWidth 64) 0 = b := by
  apply BitVec.eq_of_getLsbD_eq
  intro k hk
  simp [getLsbD_byteOf _ _ _ hk, BitVec.getLsbD_setWidth]
  omega

@[simp] theorem byteOf_setWidth_succ (b : Byte) (i : Nat) : byteOf (b.setWidth 64) (i + 1) = 0 := by
  apply BitVec.eq_of_getLsbD_eq
  intro k hk
  simp only [getLsbD_byteOf _ _ _ hk, BitVec.getLsbD_setWidth]
  rw [BitVec.getLsbD_of_ge b _ (by omega)]
  simp

@[simp] theorem byteOf_shiftLeft_zero (b : Block) : byteOf (b <<< 8) 0 = 0 := by
  apply BitVec.eq_of_getLsbD_eq
  intro k hk
  simp only [getLsbD_byteOf _ _ _ hk, BitVec.getLsbD_shiftLeft]
  simp [hk]

theorem byteOf_shiftLeft_succ (b : Block) {i : Nat} (h : i + 1 < 8) : byteOf (b <<< 8) (i + 1) = byteOf b i := by
  apply BitVec.eq_of_getLsbD_eq
  intro k hk
  simp only [getLsbD_byteOf _ _ _ hk, BitVec.getLsbD_shiftLeft]
  have h1 : 8 * (i + 1) + k < 64 := by omega
  have h2 : ¬(8 * (i + 1) + k < 8) := by omega
  simp only [h1, h2, decide_true, decide_false, Bool.not_false, Bool.true_and]
  congr 1
  omega

/-- Byte i of the little-endian value of at most eight bytes is the i-th of them (R43). -/
theorem byteOf_leValue {bs : List Byte} (h : bs.length ≤ 8) {i : Nat} (hi : i < bs.length) :
    byteOf (leValue bs) i = bs[i] := by
  induction bs generalizing i with
  | nil => simp at hi
  | cons b bs ih =>
    have hl : bs.length + 1 ≤ 8 := by simpa using h
    cases i with
    | zero => simp [leValue]
    | succ i =>
      have hi : i < bs.length := by simpa using hi
      rw [leValue, byteOf_or, byteOf_setWidth_succ, byteOf_shiftLeft_succ _ (by omega), ih (by omega) hi]
      simp

/-- Byte i of the little-endian value of fewer bytes than i + 1 is zero. -/
theorem byteOf_leValue_ge {bs : List Byte} {i : Nat} (hi : bs.length ≤ i) (h8 : i < 8) : byteOf (leValue bs) i = 0 := by
  induction bs generalizing i with
  | nil => simp [leValue]
  | cons b bs ih =>
    cases i with
    | zero => simp at hi
    | succ i =>
      rw [leValue, byteOf_or, byteOf_setWidth_succ, byteOf_shiftLeft_succ _ h8, ih (by simpa using hi) (by omega)]
      simp

/-- The eight little-endian bytes of a block are the block. -/
@[simp] theorem leValue_leBytes (v : Block) : leValue (leBytes v 8) = v :=
  block_ext_bytes fun i hi => by rw [byteOf_leValue (by simp) (by simpa using hi), getElem_leBytes]

/-- A tail mask keeps the low `rest` bytes (R134). -/
theorem byteOf_and_tailMask (b : Block) {rest i : Nat} (hr : rest < 8) (hi : i < rest) :
    byteOf (b &&& tailMask rest) i = byteOf b i := by
  apply BitVec.eq_of_getLsbD_eq
  intro k hk
  have h1 : 8 * i + k < 64 := by omega
  have h2 : 8 * i + k < 8 * rest := by omega
  simp [getLsbD_byteOf _ _ _ hk, tailMask, BitVec.getLsbD_ofNat, Nat.testBit_two_pow_sub_one, h1, h2]

/-- What `MemRead` answers, byte by byte. -/
theorem byteOf_memRead {m : Memory} {off n i : Nat} {v : Block} (h : memRead m off n = .next v) (hn : n ≤ 8)
    (hi : i < n) : Memory.get m (off + i) = .val (byteOf v i) := by
  obtain ⟨bs, hb, rfl⟩ := memRead_eq_next.mp h
  obtain ⟨hl, hg⟩ := readBytes_eq_next.mp hb
  rw [hg i (by omega), byteOf_leValue (by omega) (by omega)]

/-- `MemRead` of bytes that are all written completes. -/
theorem memRead_of_written {m : Memory} {off n : Nat}
    (h : ∀ a, off ≤ a → a < off + n → (Memory.get m a).isVal = true) : ∃ v, memRead m off n = .next v := by
  obtain ⟨bs, hb⟩ := readBytes_of_written (sp := .src) h
  exact ⟨leValue bs, memRead_eq_next.mpr ⟨bs, hb, rfl⟩⟩

/-- `MemRead` of eight bytes that are a block's, gives the block. -/
theorem memRead_of_bytes {m : Memory} {off : Nat} {v : Block}
    (h : ∀ i, i < 8 → Memory.get m (off + i) = .val (byteOf v i)) : memRead m off 8 = .next v :=
  memRead_eq_next.mpr ⟨leBytes v 8, readBytes_eq_next.mpr ⟨by simp, fun i hi => by
    rw [getElem_leBytes]; exact h i (by simpa using hi)⟩, by simp⟩

end Sys2Proof.Machine
end

