-- ==== Sys2Proof/Laws/Cipher.lean ====
section
/-! SUPPORT. Words as nibbles, blocks as halves, and rounds undone by rounds. -/

namespace Sys2Proof.Machine

/-! ### Nibbles -/

theorem getLsbD_nibble (t : Word) (i k : Nat) (hk : k < 4) : (nibble t i).getLsbD k = t.getLsbD (4 * i + k) := by
  simp [nibble, hk]

/-- A word is its eight nibbles. -/
theorem word_ext_nibbles {a b : Word} (h : ∀ i : Fin 8, nibble a i = nibble b i) : a = b := by
  apply BitVec.eq_of_getLsbD_eq
  intro k hk
  have hb := congrArg (fun x => x.getLsbD (k % 4)) (h ⟨k / 4, by omega⟩)
  simp only [getLsbD_nibble _ _ _ (Nat.mod_lt k (by decide : 4 > 0))] at hb
  rwa [show 4 * (k / 4) + k % 4 = k by omega] at hb

theorem nibble_or (a b : Word) (i : Nat) : nibble (a ||| b) i = nibble a i ||| nibble b i := by
  apply BitVec.eq_of_getLsbD_eq
  intro k hk
  simp only [getLsbD_nibble _ _ _ hk, BitVec.getLsbD_or]

/-- A nibble placed at position j is itself there and zero elsewhere. -/
theorem nibble_place (v : Nibble) (i j : Fin 8) :
    nibble (v.setWidth 32 <<< (4 * j.val)) i = if i = j then v else 0 := by
  apply BitVec.eq_of_getLsbD_eq
  intro k hk
  rw [getLsbD_nibble _ _ _ hk, BitVec.getLsbD_shiftLeft, BitVec.getLsbD_setWidth]
  have h1 : 4 * i.val + k < 32 := by omega
  by_cases hij : i = j
  · subst hij
    have h2 : ¬(4 * i.val + k < 4 * i.val) := by omega
    have h3 : 4 * i.val + k - 4 * i.val = k := by omega
    have h4 : k < 32 := by omega
    simp [h1, h3, h4]
  · rw [if_neg hij]
    have hv : i.val ≠ j.val := fun h => hij (Fin.ext h)
    by_cases hlt : 4 * i.val + k < 4 * j.val
    · simp [hlt]
    · have h5 : 4 ≤ 4 * i.val + k - 4 * j.val := by omega
      rw [BitVec.getLsbD_of_ge v _ h5]
      simp

/-- `mapNibbles` does what it says at every position. -/
theorem nibble_mapNibbles (f : Fin 8 → Nibble → Nibble) (t : Word) (i : Fin 8) :
    nibble (mapNibbles f t) i = f i (nibble t i) := by
  have h0 : nibble 0 i = 0 := by
    apply BitVec.eq_of_getLsbD_eq
    intro k hk
    rw [getLsbD_nibble _ _ _ hk]
    simp
  simp only [mapNibbles, nibblePositions, List.foldl_cons, List.foldl_nil, nibble_or, nibble_place, h0]
  match i with
  | 0 => simp
  | 1 => simp
  | 2 => simp
  | 3 => simp
  | 4 => simp
  | 5 => simp
  | 6 => simp
  | 7 => simp

/-! ### Halves -/

/-- The two halves exchanged. -/
def swapHalves (p : Halves) : Halves := (p.2, p.1)

theorem toNat_cat64 (h l : Word) : (cat64 h l).toNat = l.toNat + h.toNat * 2 ^ 32 := by
  have hl := l.isLt
  have hh := h.isLt
  rw [cat64, BitVec.toNat_or, BitVec.toNat_shiftLeft, BitVec.toNat_setWidth, BitVec.toNat_setWidth,
    Nat.mod_eq_of_lt (show h.toNat < 2 ^ 64 by omega), Nat.mod_eq_of_lt (show l.toNat < 2 ^ 64 by omega),
    Nat.shiftLeft_eq, Nat.mod_eq_of_lt (by omega), Nat.mul_comm h.toNat, ← Nat.two_pow_add_eq_or_of_lt hl]
  omega

theorem toNat_lo32 (b : Block) : (lo32 b).toNat = b.toNat % 2 ^ 32 := by
  simp [lo32, BitVec.extractLsb'_toNat]

theorem toNat_hi32 (b : Block) : (hi32 b).toNat = b.toNat / 2 ^ 32 := by
  have := b.isLt
  rw [hi32, BitVec.extractLsb'_toNat, Nat.shiftRight_eq_div_pow, Nat.mod_eq_of_lt (by omega)]

@[simp] theorem lo32_cat64 (h l : Word) : lo32 (cat64 h l) = l := by
  apply BitVec.eq_of_toNat_eq
  have := l.isLt
  rw [toNat_lo32, toNat_cat64]
  omega

@[simp] theorem hi32_cat64 (h l : Word) : hi32 (cat64 h l) = h := by
  apply BitVec.eq_of_toNat_eq
  have := l.isLt
  rw [toNat_hi32, toNat_cat64]
  omega

@[simp] theorem cat64_hi32_lo32 (b : Block) : cat64 (hi32 b) (lo32 b) = b := by
  apply BitVec.eq_of_toNat_eq
  rw [toNat_cat64, toNat_hi32, toNat_lo32]
  omega

/-- Reassembly and then the split exchange the halves (R110). -/
@[simp] theorem splitBlock_joinHalves (p : Halves) : splitBlock (joinHalves p) = swapHalves p := by
  simp [splitBlock, joinHalves, swapHalves]

/-- Reassembling the exchanged halves of a block gives the block. -/
@[simp] theorem joinHalves_swap_splitBlock (b : Block) : joinHalves (swapHalves (splitBlock b)) = b := by
  simp [splitBlock, joinHalves, swapHalves]

@[simp] theorem swapHalves_swapHalves (p : Halves) : swapHalves (swapHalves p) = p := rfl

/-! ### Rounds -/

/-- A round between two exchanges undoes a round with the same key (R91). -/
theorem round_swap_round (sb : Sbox) (p : Halves) (k : Word) :
    round sb (swapHalves (round sb p k)) k = swapHalves p := by
  simp [round, swapHalves]

theorem runRounds_append (sb : Sbox) (ks ks' : List Word) (p : Halves) :
    runRounds sb (ks ++ ks') p = runRounds sb ks' (runRounds sb ks p) := by
  simp [runRounds, List.foldl_append]

/-- Rounds in the reversed key order undo rounds, between two exchanges (R113's collapse). -/
theorem runRounds_reverse (sb : Sbox) (ks : List Word) (p : Halves) :
    runRounds sb ks.reverse (swapHalves (runRounds sb ks p)) = swapHalves p := by
  induction ks generalizing p with
  | nil => rfl
  | cons k ks ih =>
    rw [List.reverse_cons, runRounds_append]
    show round sb (runRounds sb ks.reverse (swapHalves (runRounds sb ks (round sb p k)))) k = _
    rw [ih, round_swap_round]

end Sys2Proof.Machine
end

