-- ==== Sys2Proof/Laws/Commands.lean ====
section
/-! SUPPORT. What each command can do, once: when it answers a next state, which one, and when it does not. -/

namespace Sys2Proof.Machine

/-! ### The chunk loops -/

section
variable {f : Block → Block} {src : Memory}

/-- A completed ECB loop: every chunk of its range holds the bytes of `f` of the source chunk, every other byte is as
before. -/
theorem ecbChunks_spec {k c : Nat} {dst d : Memory} (h : ecbChunks f src k c dst = .next d) :
    (∀ j, c ≤ j → j < c + k → ∃ v, memRead src (chunkOffset j) 8 = .next v ∧
      ∀ i, i < 8 → Memory.get d (chunkOffset j + i) = .val (byteOf (f v) i)) ∧
    (∀ a, a < chunkOffset c ∨ chunkOffset (c + k) ≤ a → Memory.get d a = Memory.get dst a) := by
  induction k generalizing c dst with
  | zero =>
    obtain rfl : dst = d := by simpa [ecbChunks] using h
    exact ⟨fun j _ _ => by omega, fun _ _ => rfl⟩
  | succ k ih =>
    obtain ⟨v, hv, h⟩ := andThen_eq_next.mp h
    obtain ⟨h1, h2⟩ := ih h
    simp only [chunkOffset, chunkBytes] at *
    refine ⟨fun j hj hj' => ?_, fun a ha => ?_⟩
    · by_cases he : j = c
      · subst he
        refine ⟨v, hv, fun i hi => ?_⟩
        rw [h2 _ (.inl (by omega)), get_memWrite, if_pos (by omega)]
        congr 2
        omega
      · exact h1 j (by omega) (by omega)
    · rw [h2 a (by omega), get_memWrite, if_neg (by omega)]

/-- The loop completes when every source byte of its range is written. -/
theorem ecbChunks_of_written {k c : Nat} {dst : Memory}
    (h : ∀ a, chunkOffset c ≤ a → a < chunkOffset (c + k) → (Memory.get src a).isVal = true) :
    ∃ d, ecbChunks f src k c dst = .next d := by
  induction k generalizing c dst with
  | zero => exact ⟨dst, rfl⟩
  | succ k ih =>
    simp only [chunkOffset, chunkBytes] at *
    obtain ⟨v, hv⟩ := memRead_of_written (m := src) (off := 8 * c) (n := 8) fun a h1 h2 => h a h1 (by omega)
    obtain ⟨d, hd⟩ := @ih (c + 1) (memWrite dst (8 * c) 8 (f v)) fun a h1 h2 => h a (by omega) (by omega)
    exact ⟨d, andThen_eq_next.mpr ⟨v, hv, hd⟩⟩

@[simp] theorem ecbChunks_ne_fault (k c : Nat) (dst : Memory) (e : Fault) : ecbChunks f src k c dst ≠ .fault e := by
  induction k generalizing c dst with
  | zero => simp [ecbChunks]
  | succ k ih => simp [ecbChunks, andThen_eq_fault, ih]

theorem ecbChunks_eq_refused {k c : Nat} {dst : Memory} {e : Refusal} (h : ecbChunks f src k c dst = .refused e) :
    ∃ a, chunkOffset c ≤ a ∧ a < chunkOffset (c + k) ∧ Memory.get src a = .novalue ∧ e = .noValueByte .src a := by
  induction k generalizing c dst with
  | zero => simp [ecbChunks] at h
  | succ k ih =>
    simp only [ecbChunks, andThen_eq_refused, memRead_eq_refused, chunkOffset, chunkBytes] at *
    rcases h with h | ⟨v, -, h⟩
    · obtain ⟨a, h1, h2, h3⟩ := readBytes_eq_refused h
      exact ⟨a, h1, by omega, h3⟩
    · obtain ⟨a, h1, h2, h3⟩ := ih h
      exact ⟨a, by omega, by omega, h3⟩

theorem ecbChunks_wf {k c : Nat} {dst d : Memory} (h : ecbChunks f src k c dst = .next d) (hw : Memory.wf dst) :
    Memory.wf d := by
  induction k generalizing c dst with
  | zero => obtain rfl : dst = d := by simpa [ecbChunks] using h
            exact hw
  | succ k ih =>
    obtain ⟨v, -, h⟩ := andThen_eq_next.mp h
    exact ih h (wf_memWrite _ _ _ hw)

theorem ecbChunks_within {lenw k c : Nat} {dst d : Memory} (h : ecbChunks f src k c dst = .next d)
    (hw : Memory.Within lenw dst) (hb : chunkOffset (c + k) ≤ 2 ^ lenw) : Memory.Within lenw d := by
  induction k generalizing c dst with
  | zero => obtain rfl : dst = d := by simpa [ecbChunks] using h
            exact hw
  | succ k ih =>
    obtain ⟨v, -, h⟩ := andThen_eq_next.mp h
    simp only [chunkOffset, chunkBytes] at *
    exact ih h (within_memWrite _ hw (by omega)) (by omega)

end

section
variable {ks : Block → Block} {src : Memory}

/-- Adding the increments of k chunks to a counter. -/
theorem nextCounter_add (ctr : Block) (k : Nat) :
    nextCounter ctr + BitVec.ofNat 64 k = ctr + BitVec.ofNat 64 (k + 1) := by
  rw [nextCounter, add64, BitVec.ofNat_add, BitVec.add_assoc, BitVec.add_comm 1]
  rfl

/-- A completed gamma loop: chunk j of its range holds the source chunk xored with the keystream word of the counter plus
j - c, every other byte is as before, and the counter has advanced by the number of chunks (R130, R133). -/
theorem gammaChunks_spec {k c : Nat} {ctr : Block} {dst : Memory} {p : Block × Memory}
    (h : gammaChunks ks src k c ctr dst = .next p) :
    p.1 = ctr + BitVec.ofNat 64 k ∧
    (∀ j, c ≤ j → j < c + k → ∃ v, memRead src (chunkOffset j) 8 = .next v ∧
      ∀ i, i < 8 →
        Memory.get p.2 (chunkOffset j + i) = .val (byteOf (v ^^^ ks (ctr + BitVec.ofNat 64 (j - c))) i)) ∧
    (∀ a, a < chunkOffset c ∨ chunkOffset (c + k) ≤ a → Memory.get p.2 a = Memory.get dst a) := by
  induction k generalizing c ctr dst with
  | zero =>
    obtain rfl : (ctr, dst) = p := by simpa [gammaChunks] using h
    exact ⟨by simp, fun j _ _ => by omega, fun _ _ => rfl⟩
  | succ k ih =>
    obtain ⟨v, hv, h⟩ := andThen_eq_next.mp h
    obtain ⟨h0, h1, h2⟩ := ih h
    simp only [chunkOffset, chunkBytes] at *
    refine ⟨by rw [h0, nextCounter_add], fun j hj hj' => ?_, fun a ha => ?_⟩
    · by_cases he : j = c
      · subst he
        refine ⟨v, hv, fun i hi => ?_⟩
        rw [h2 _ (.inl (by omega)), get_memWrite, if_pos (by omega)]
        simp
      · obtain ⟨v', hv', hi'⟩ := h1 j (by omega) (by omega)
        refine ⟨v', hv', fun i hi => ?_⟩
        rw [hi' i hi, nextCounter_add, show j - (c + 1) + 1 = j - c by omega]
    · rw [h2 a (by omega), get_memWrite, if_neg (by omega)]

theorem gammaChunks_of_written {k c : Nat} {ctr : Block} {dst : Memory}
    (h : ∀ a, chunkOffset c ≤ a → a < chunkOffset (c + k) → (Memory.get src a).isVal = true) :
    ∃ p, gammaChunks ks src k c ctr dst = .next p := by
  induction k generalizing c ctr dst with
  | zero => exact ⟨(ctr, dst), rfl⟩
  | succ k ih =>
    simp only [chunkOffset, chunkBytes] at *
    obtain ⟨v, hv⟩ := memRead_of_written (m := src) (off := 8 * c) (n := 8) fun a h1 h2 => h a h1 (by omega)
    obtain ⟨d, hd⟩ := @ih (c + 1) (nextCounter ctr) (memWrite dst (8 * c) 8 (v ^^^ ks ctr))
      fun a h1 h2 => h a (by omega) (by omega)
    exact ⟨d, andThen_eq_next.mpr ⟨v, hv, hd⟩⟩

@[simp] theorem gammaChunks_ne_fault (k c : Nat) (ctr : Block) (dst : Memory) (e : Fault) :
    gammaChunks ks src k c ctr dst ≠ .fault e := by
  induction k generalizing c ctr dst with
  | zero => simp [gammaChunks]
  | succ k ih => simp [gammaChunks, andThen_eq_fault, ih]

theorem gammaChunks_eq_refused {k c : Nat} {ctr : Block} {dst : Memory} {e : Refusal}
    (h : gammaChunks ks src k c ctr dst = .refused e) :
    ∃ a, chunkOffset c ≤ a ∧ a < chunkOffset (c + k) ∧ Memory.get src a = .novalue ∧ e = .noValueByte .src a := by
  induction k generalizing c ctr dst with
  | zero => simp [gammaChunks] at h
  | succ k ih =>
    simp only [gammaChunks, andThen_eq_refused, memRead_eq_refused, chunkOffset, chunkBytes] at *
    rcases h with h | ⟨v, -, h⟩
    · obtain ⟨a, h1, h2, h3⟩ := readBytes_eq_refused h
      exact ⟨a, h1, by omega, h3⟩
    · obtain ⟨a, h1, h2, h3⟩ := ih h
      exact ⟨a, by omega, by omega, h3⟩

theorem gammaChunks_wf {k c : Nat} {ctr : Block} {dst : Memory} {p : Block × Memory}
    (h : gammaChunks ks src k c ctr dst = .next p) (hw : Memory.wf dst) : Memory.wf p.2 := by
  induction k generalizing c ctr dst with
  | zero => obtain rfl : (ctr, dst) = p := by simpa [gammaChunks] using h
            exact hw
  | succ k ih =>
    obtain ⟨v, -, h⟩ := andThen_eq_next.mp h
    exact ih h (wf_memWrite _ _ _ hw)

theorem gammaChunks_within {lenw k c : Nat} {ctr : Block} {dst : Memory} {p : Block × Memory}
    (h : gammaChunks ks src k c ctr dst = .next p) (hw : Memory.Within lenw dst)
    (hb : chunkOffset (c + k) ≤ 2 ^ lenw) : Memory.Within lenw p.2 := by
  induction k generalizing c ctr dst with
  | zero => obtain rfl : (ctr, dst) = p := by simpa [gammaChunks] using h
            exact hw
  | succ k ih =>
    obtain ⟨v, -, h⟩ := andThen_eq_next.mp h
    simp only [chunkOffset, chunkBytes] at *
    exact ih h (within_memWrite _ hw (by omega)) (by omega)

/-- A completed tail: its bytes are the source bytes xored with the low bytes of the keystream word (R134). -/
theorem gammaTail_spec {q rest : Nat} {ctr : Block} {dst d : Memory} (hr : rest < 8)
    (h : gammaTail ks src q rest ctr dst = .next d) :
    (∀ i, i < rest → ∃ b, Memory.get src (chunkOffset q + i) = .val b ∧
      Memory.get d (chunkOffset q + i) = .val (b ^^^ byteOf (ks ctr) i)) ∧
    (∀ a, a < chunkOffset q ∨ chunkOffset q + rest ≤ a → Memory.get d a = Memory.get dst a) := by
  unfold gammaTail at h
  split at h
  · obtain rfl : dst = d := by simpa using h
    exact ⟨fun i hi => by omega, fun _ _ => rfl⟩
  · obtain ⟨v, hv, h⟩ := andThen_eq_next.mp h
    obtain rfl := Host.Outcome.next.inj h
    refine ⟨fun i hi => ⟨byteOf v i, byteOf_memRead hv (by omega) hi, ?_⟩, fun a ha => ?_⟩
    · rw [get_memWrite, if_pos (by omega), show chunkOffset q + i - chunkOffset q = i by omega, byteOf_xor,
        byteOf_and_tailMask _ hr hi]
    · rw [get_memWrite, if_neg (by omega)]

theorem gammaTail_of_written {q rest : Nat} {ctr : Block} {dst : Memory}
    (h : ∀ a, chunkOffset q ≤ a → a < chunkOffset q + rest → (Memory.get src a).isVal = true) :
    ∃ d, gammaTail ks src q rest ctr dst = .next d := by
  unfold gammaTail
  split
  · exact ⟨dst, rfl⟩
  · obtain ⟨v, hv⟩ := memRead_of_written h
    exact ⟨_, andThen_eq_next.mpr ⟨v, hv, rfl⟩⟩

@[simp] theorem gammaTail_ne_fault (q rest : Nat) (ctr : Block) (dst : Memory) (e : Fault) :
    gammaTail ks src q rest ctr dst ≠ .fault e := by
  unfold gammaTail; split <;> simp [andThen_eq_fault]

theorem gammaTail_eq_refused {q rest : Nat} {ctr : Block} {dst : Memory} {e : Refusal}
    (h : gammaTail ks src q rest ctr dst = .refused e) :
    ∃ a, chunkOffset q ≤ a ∧ a < chunkOffset q + rest ∧ Memory.get src a = .novalue ∧ e = .noValueByte .src a := by
  unfold gammaTail at h
  split at h
  · cases h
  · simp only [andThen_eq_refused, memRead_eq_refused, reduceCtorEq, and_false, exists_false, or_false] at h
    exact readBytes_eq_refused h

theorem gammaTail_wf {q rest : Nat} {ctr : Block} {dst d : Memory} (h : gammaTail ks src q rest ctr dst = .next d)
    (hw : Memory.wf dst) : Memory.wf d := by
  unfold gammaTail at h
  split at h
  · obtain rfl : dst = d := by simpa using h
    exact hw
  · obtain ⟨v, -, h⟩ := andThen_eq_next.mp h
    obtain rfl := Host.Outcome.next.inj h
    exact wf_memWrite _ _ _ hw

theorem gammaTail_within {lenw q rest : Nat} {ctr : Block} {dst d : Memory}
    (h : gammaTail ks src q rest ctr dst = .next d) (hw : Memory.Within lenw dst)
    (hb : chunkOffset q + rest ≤ 2 ^ lenw) : Memory.Within lenw d := by
  unfold gammaTail at h
  split at h
  · obtain rfl : dst = d := by simpa using h
    exact hw
  · obtain ⟨v, -, h⟩ := andThen_eq_next.mp h
    obtain rfl := Host.Outcome.next.inj h
    exact within_memWrite _ hw hb

end

/-! ### Validation -/

theorem validateEcb_eq_none {n m : Nat} : validateEcb n m = none ↔ n % 8 = 0 ∧ n = m := by
  unfold validateEcb
  by_cases h1 : n % 8 = 0 <;> by_cases h2 : n = m <;> simp [h1, h2]

theorem validateEcb_eq_some {n m : Nat} {e : LengthError} : validateEcb n m = some e ↔
    (n % 8 ≠ 0 ∧ e = .lengthNotBlockAligned) ∨ (n % 8 = 0 ∧ n ≠ m ∧ e = .lengthMismatch) := by
  unfold validateEcb
  by_cases h1 : n % 8 = 0 <;> by_cases h2 : n = m <;> simp [h1, h2, eq_comm]

theorem validateGamma_eq_none {n m : Nat} : validateGamma n m = none ↔ n = m := by
  unfold validateGamma
  by_cases h : n = m <;> simp [h]

theorem validateGamma_eq_some {n m : Nat} {e : LengthError} :
    validateGamma n m = some e ↔ n ≠ m ∧ e = .lengthMismatch := by
  unfold validateGamma
  by_cases h : n = m <;> simp [h, eq_comm]

/-! ### The commands -/

/-- ROUND completes exactly when L, R and RKEY hold values, in the state of R92. -/
theorem execRound_eq_next {s t : State} : execRound s = .next t ↔
    ∃ l r k, s.l = .val l ∧ s.r = .val r ∧ s.rkey = .val k ∧ t = roundDone (round s.cfg.sbox (l, r) k) s := by
  simp only [execRound, andThen_eq_next, need_eq_next, Host.Outcome.next.injEq]
  constructor
  · rintro ⟨l, hl, r, hr, k, hk, rfl⟩; exact ⟨l, r, k, hl, hr, hk, rfl⟩
  · rintro ⟨l, r, k, hl, hr, hk, rfl⟩; exact ⟨l, hl, r, hr, k, hk, rfl⟩

/-- ENCBLK and DECBLK complete exactly when BIN and K hold values, in the state of R111. -/
theorem blockCommand_eq_next {d : Dir} {s t : State} : blockCommand d s = .next t ↔
    ∃ b key, s.bin = .val b ∧ s.HoldsKey key ∧ t = blockDone (block s.cfg.sbox key d b) s := by
  simp only [blockCommand, andThen_eq_next, need_eq_next, needKey_eq_next, Host.Outcome.next.injEq]
  constructor
  · rintro ⟨b, hb, key, hk, rfl⟩; exact ⟨b, key, hb, hk, rfl⟩
  · rintro ⟨b, key, hb, hk, rfl⟩; exact ⟨b, hb, key, hk, rfl⟩

/-- The three ways ENCECB and DECECB complete: an error, an empty buffer, a run over the chunks. -/
theorem ecbCommand_eq_next {d : Dir} {s t : State} : ecbCommand d s = .next t ↔ ∃ n m, s.Lengths n m ∧
    ((∃ e, validateEcb n m = some e ∧ t = raiseError e s) ∨
     (n = 0 ∧ m = 0 ∧ t = bufferDone s.dst s) ∨
     (0 < n ∧ n % 8 = 0 ∧ n = m ∧ ∃ key dst, s.HoldsKey key ∧
        ecbChunks (block s.cfg.sbox key d) s.src (n / 8) 0 s.dst = .next dst ∧ t = bufferDone dst s)) := by
  simp only [ecbCommand, andThen_eq_next, need_eq_next]
  constructor
  · rintro ⟨n, hn, m, hm, h⟩
    refine ⟨n, m, ⟨hn, hm⟩, ?_⟩
    cases hv : validateEcb n m with
    | some e =>
      rw [hv] at h
      exact .inl ⟨e, rfl, (Host.Outcome.next.inj h).symm⟩
    | none =>
      rw [hv] at h
      obtain ⟨h8, rfl⟩ := validateEcb_eq_none.mp hv
      by_cases h0 : n = 0
      · subst h0
        exact .inr (.inl ⟨rfl, rfl, (Host.Outcome.next.inj h).symm⟩)
      · simp only [h0, if_false] at h
        obtain ⟨key, hk, h⟩ := andThen_eq_next.mp h
        obtain ⟨dst, hd, h⟩ := andThen_eq_next.mp h
        exact .inr (.inr ⟨by omega, h8, rfl, key, dst, needKey_eq_next.mp hk, hd, (Host.Outcome.next.inj h).symm⟩)
  · rintro ⟨n, m, ⟨hn, hm⟩, h⟩
    refine ⟨n, hn, m, hm, ?_⟩
    rcases h with ⟨e, hv, rfl⟩ | ⟨rfl, rfl, rfl⟩ | ⟨h0, h8, rfl, key, dst, hk, hd, rfl⟩
    · rw [hv]
    · simp [validateEcb]
    · rw [validateEcb_eq_none.mpr ⟨h8, rfl⟩]
      simp only [show n ≠ 0 by omega, if_false]
      exact andThen_eq_next.mpr ⟨key, needKey_eq_next.mpr hk, andThen_eq_next.mpr ⟨dst, hd, rfl⟩⟩

/-- The three ways ENCGAM and DECGAM complete: an error, an empty buffer, a run over the chunks and the tail. -/
theorem gammaCommand_eq_next {s t : State} : gammaCommand s = .next t ↔ ∃ n m, s.Lengths n m ∧
    ((n ≠ m ∧ t = raiseError .lengthMismatch s) ∨
     (n = 0 ∧ m = 0 ∧ t = bufferDone s.dst s) ∨
     (0 < n ∧ n = m ∧ ∃ iv key p dst, s.iv = .val iv ∧ s.HoldsKey key ∧
        gammaChunks (block s.cfg.sbox key .enc) s.src (n / 8) 0 (initialCounter iv) s.dst = .next p ∧
        gammaTail (block s.cfg.sbox key .enc) s.src (n / 8) (n % 8) p.1 p.2 = .next dst ∧
        t = bufferDone dst s)) := by
  simp only [gammaCommand, andThen_eq_next, need_eq_next]
  constructor
  · rintro ⟨n, hn, m, hm, h⟩
    refine ⟨n, m, ⟨hn, hm⟩, ?_⟩
    cases hv : validateGamma n m with
    | some e =>
      rw [hv] at h
      obtain ⟨hne, rfl⟩ := validateGamma_eq_some.mp hv
      exact .inl ⟨hne, (Host.Outcome.next.inj h).symm⟩
    | none =>
      rw [hv] at h
      obtain rfl := validateGamma_eq_none.mp hv
      by_cases h0 : n = 0
      · subst h0
        exact .inr (.inl ⟨rfl, rfl, (Host.Outcome.next.inj h).symm⟩)
      · simp only [h0, if_false] at h
        obtain ⟨iv, hi, h⟩ := andThen_eq_next.mp h
        obtain ⟨key, hk, h⟩ := andThen_eq_next.mp h
        obtain ⟨p, hp, h⟩ := andThen_eq_next.mp h
        obtain ⟨dst, hd, h⟩ := andThen_eq_next.mp h
        exact .inr (.inr ⟨by omega, rfl, iv, key, p, dst, need_eq_next.mp hi, needKey_eq_next.mp hk, hp, hd,
          (Host.Outcome.next.inj h).symm⟩)
  · rintro ⟨n, m, ⟨hn, hm⟩, h⟩
    refine ⟨n, hn, m, hm, ?_⟩
    rcases h with ⟨hne, rfl⟩ | ⟨rfl, rfl, rfl⟩ | ⟨h0, rfl, iv, key, p, dst, hi, hk, hp, hd, rfl⟩
    · rw [validateGamma_eq_some.mpr ⟨hne, rfl⟩]
    · simp [validateGamma]
    · rw [validateGamma_eq_none.mpr rfl]
      simp only [show n ≠ 0 by omega, if_false]
      exact andThen_eq_next.mpr ⟨iv, need_eq_next.mpr hi, andThen_eq_next.mpr ⟨key, needKey_eq_next.mpr hk,
        andThen_eq_next.mpr ⟨p, hp, andThen_eq_next.mpr ⟨dst, hd, rfl⟩⟩⟩⟩

/-- A completed gamma run, byte by byte: offset i of the buffer holds the source byte xored with the keystream byte of R135,
and no byte at n or beyond has changed. -/
theorem gammaRun_spec {ks : Block → Block} {src dst d : Memory} {n : Nat} {ctr : Block} {p : Block × Memory}
    (hp : gammaChunks ks src (n / 8) 0 ctr dst = .next p) (hd : gammaTail ks src (n / 8) (n % 8) p.1 p.2 = .next d) :
    (∀ i, i < n → ∃ b, Memory.get src i = .val b ∧
      Memory.get d i = .val (b ^^^ byteOf (ks (ctr + BitVec.ofNat 64 (i / 8))) (i % 8))) ∧
    (∀ a, n ≤ a → Memory.get d a = Memory.get dst a) := by
  obtain ⟨hc, h1, h2⟩ := gammaChunks_spec hp
  obtain ⟨h3, h4⟩ := gammaTail_spec (by omega) hd
  simp only [chunkOffset, chunkBytes] at *
  refine ⟨fun i hi => ?_, fun a ha => ?_⟩
  · by_cases hf : i / 8 < n / 8
    · obtain ⟨v, hv, hb⟩ := h1 (i / 8) (by omega) (by omega)
      refine ⟨byteOf v (i % 8), ?_, ?_⟩
      · have := byteOf_memRead hv (by omega) (show i % 8 < 8 by omega)
        rwa [show 8 * (i / 8) + i % 8 = i by omega] at this
      · rw [h4 i (by omega)]
        have := hb (i % 8) (by omega)
        rwa [show 8 * (i / 8) + i % 8 = i by omega, byteOf_xor, Nat.sub_zero] at this
    · obtain ⟨b, hb, hb'⟩ := h3 (i % 8) (by omega)
      rw [show 8 * (n / 8) + i % 8 = i by omega] at hb hb'
      exact ⟨b, hb, by rw [hb', hc, show n / 8 = i / 8 by omega]⟩
  · rw [h4 a (by omega), h2 a (by omega)]

/-- A completed ECB run leaves every byte at its length or beyond. -/
theorem ecbRun_beyond {f : Block → Block} {src dst d : Memory} {n : Nat} (h8 : n % 8 = 0)
    (h : ecbChunks f src (n / 8) 0 dst = .next d) (a : Nat) (ha : n ≤ a) : Memory.get d a = Memory.get dst a :=
  (ecbChunks_spec h).2 a (.inr (by simp only [chunkOffset, chunkBytes]; omega))

/-! ### When a command is refused -/

theorem getReg_key_novalue {s : State} {i : Fin 8} (h : s.key[i] = .novalue) : getReg (.key i) s = .novalue := by
  show Held.toNat s.key[i] = _
  rw [h]; rfl

theorem mem_keyRegs (i : Fin 8) : Reg.key i ∈ keyRegs := by revert i; decide

@[simp] theorem execRound_ne_fault (s : State) (e : Fault) : execRound s ≠ .fault e := by
  simp [execRound, andThen_eq_fault]

@[simp] theorem blockCommand_ne_fault (d : Dir) (s : State) (e : Fault) : blockCommand d s ≠ .fault e := by
  simp [blockCommand, andThen_eq_fault]

@[simp] theorem ecbCommand_ne_fault (d : Dir) (s : State) (e : Fault) : ecbCommand d s ≠ .fault e := by
  simp only [ecbCommand, ne_eq, andThen_eq_fault, need_ne_fault, false_or, not_exists, not_and]
  intro n _ m _
  cases validateEcb n m
  · by_cases h : n = 0 <;> simp [h, andThen_eq_fault]
  · simp

@[simp] theorem gammaCommand_ne_fault (s : State) (e : Fault) : gammaCommand s ≠ .fault e := by
  simp only [gammaCommand, ne_eq, andThen_eq_fault, need_ne_fault, false_or, not_exists, not_and]
  intro n _ m _
  cases validateGamma n m
  · by_cases h : n = 0 <;> simp [h, andThen_eq_fault]
  · simp

/-- ROUND is refused only for a register of its row of R62 that holds `novalue` (R92). -/
theorem execRound_eq_refused {s : State} {e : Refusal} (h : execRound s = .refused e) :
    ∃ reg ∈ readRegs .round, e = .noValue reg ∧ getReg reg s = .novalue := by
  simp only [execRound, andThen_eq_refused, need_eq_refused] at h
  rcases h with ⟨h, rfl⟩ | ⟨_, -, ⟨h, rfl⟩ | ⟨_, -, ⟨h, rfl⟩ | ⟨_, -, h⟩⟩⟩
  · exact ⟨_, by simp [readRegs], rfl, by simp [getReg, h, Held.toNat]⟩
  · exact ⟨_, by simp [readRegs], rfl, by simp [getReg, h, Held.toNat]⟩
  · exact ⟨_, by simp [readRegs], rfl, by simp [getReg, h, Held.toNat]⟩
  · cases h

/-- ENCBLK and DECBLK are refused only for BIN or a K[i] that holds `novalue` (R111). -/
theorem blockCommand_eq_refused {d : Dir} {s : State} {e : Refusal} (h : blockCommand d s = .refused e) :
    ∃ reg ∈ Reg.bin :: keyRegs, e = .noValue reg ∧ getReg reg s = .novalue := by
  simp only [blockCommand, andThen_eq_refused, need_eq_refused] at h
  rcases h with ⟨h, rfl⟩ | ⟨_, -, h | ⟨_, -, h⟩⟩
  · exact ⟨_, by simp, rfl, by simp [getReg, h, Held.toNat]⟩
  · obtain ⟨i, hi, rfl⟩ := needKey_eq_refused h
    exact ⟨_, by simp [mem_keyRegs], rfl, getReg_key_novalue hi⟩
  · cases h

/-- ENCECB and DECECB are refused only for a length, a K[i] or a source byte that holds `novalue` (R120). -/
theorem ecbCommand_eq_refused {d : Dir} {s : State} {e : Refusal} (h : ecbCommand d s = .refused e) :
    (∃ reg ∈ Reg.srcLen :: Reg.dstLen :: keyRegs, e = .noValue reg ∧ getReg reg s = .novalue) ∨
    ∃ n a, e = .noValueByte .src a ∧ s.srcLen = .val n ∧ a < n ∧ Memory.get s.src a = .novalue := by
  simp only [ecbCommand, andThen_eq_refused, need_eq_refused, need_eq_next] at h
  rcases h with ⟨h, rfl⟩ | ⟨n, hn, ⟨h, rfl⟩ | ⟨m, hm, h⟩⟩
  · exact .inl ⟨_, by simp, rfl, h⟩
  · exact .inl ⟨_, by simp, rfl, h⟩
  · cases hv : validateEcb n m with
    | some e' => simp [hv] at h
    | none =>
      simp only [hv] at h
      by_cases h0 : n = 0
      · simp [h0] at h
      · simp only [h0, if_false, andThen_eq_refused] at h
        rcases h with h | ⟨k, hk, h | ⟨d, hd, h⟩⟩
        · obtain ⟨i, hi, rfl⟩ := needKey_eq_refused h
          exact .inl ⟨_, by simp [mem_keyRegs], rfl, getReg_key_novalue hi⟩
        · obtain ⟨a, h1, h2, h3, rfl⟩ := ecbChunks_eq_refused h
          simp only [chunkOffset, chunkBytes] at h2
          exact .inr ⟨n, a, rfl, hn, by omega, h3⟩
        · cases h

/-- ENCGAM and DECGAM are refused only for a length, IV, a K[i] or a source byte that holds `novalue` (R130). -/
theorem gammaCommand_eq_refused {s : State} {e : Refusal} (h : gammaCommand s = .refused e) :
    (∃ reg ∈ Reg.srcLen :: Reg.dstLen :: Reg.iv :: keyRegs, e = .noValue reg ∧ getReg reg s = .novalue) ∨
    ∃ n a, e = .noValueByte .src a ∧ s.srcLen = .val n ∧ a < n ∧ Memory.get s.src a = .novalue := by
  simp only [gammaCommand, andThen_eq_refused, need_eq_refused, need_eq_next] at h
  rcases h with ⟨h, rfl⟩ | ⟨n, hn, ⟨h, rfl⟩ | ⟨m, hm, h⟩⟩
  · exact .inl ⟨_, by simp, rfl, h⟩
  · exact .inl ⟨_, by simp, rfl, h⟩
  · cases hv : validateGamma n m with
    | some e' => simp [hv] at h
    | none =>
      simp only [hv] at h
      by_cases h0 : n = 0
      · simp [h0] at h
      · simp only [h0, if_false, andThen_eq_refused, need_eq_refused] at h
        rcases h with ⟨h, rfl⟩ | ⟨iv, hiv, h | ⟨k, hk, h | ⟨p, hp, h | ⟨d, hd, h⟩⟩⟩⟩
        · exact .inl ⟨_, by simp, rfl, by simp [getReg, h, Held.toNat]⟩
        · obtain ⟨i, hi, rfl⟩ := needKey_eq_refused h
          exact .inl ⟨_, by simp [mem_keyRegs], rfl, getReg_key_novalue hi⟩
        · obtain ⟨a, h1, h2, h3, rfl⟩ := gammaChunks_eq_refused h
          simp only [chunkOffset, chunkBytes] at h2
          exact .inr ⟨n, a, rfl, hn, by omega, h3⟩
        · obtain ⟨a, h1, h2, h3, rfl⟩ := gammaTail_eq_refused h
          simp only [chunkOffset, chunkBytes] at h2
          exact .inr ⟨n, a, rfl, hn, by omega, h3⟩
        · cases h

/-! ### Every command -/

/-- Everything a command that completes can have done (R14, R152): which update of which kind of command. -/
theorem exec_cases {i : Instr} {s t : State} (h : exec i s = .next t) :
    (∃ p, i = .round ∧ t = roundDone p s) ∨
    (∃ b, (i = .encblk ∨ i = .decblk) ∧ t = blockDone b s) ∨
    (∃ e, isBuffer i ∧ t = raiseError e s) ∨
    (∃ dst n, isBuffer i ∧ s.Lengths n n ∧ (∀ a, n ≤ a → Memory.get dst a = Memory.get s.dst a) ∧
      t = bufferDone dst s) := by
  have ecb {d} (hi : isBuffer i) (h : ecbCommand d s = .next t) : (∃ e, isBuffer i ∧ t = raiseError e s) ∨
      (∃ dst n, isBuffer i ∧ s.Lengths n n ∧ (∀ a, n ≤ a → Memory.get dst a = Memory.get s.dst a) ∧
        t = bufferDone dst s) := by
    obtain ⟨n, m, hl, ⟨e, -, rfl⟩ | ⟨rfl, rfl, rfl⟩ | ⟨-, h8, rfl, _, dst, -, hd, rfl⟩⟩ := ecbCommand_eq_next.mp h
    · exact .inl ⟨e, hi, rfl⟩
    · exact .inr ⟨s.dst, 0, hi, hl, fun _ _ => rfl, rfl⟩
    · exact .inr ⟨dst, n, hi, hl, ecbRun_beyond h8 hd, rfl⟩
  have gam (hi : isBuffer i) (h : gammaCommand s = .next t) : (∃ e, isBuffer i ∧ t = raiseError e s) ∨
      (∃ dst n, isBuffer i ∧ s.Lengths n n ∧ (∀ a, n ≤ a → Memory.get dst a = Memory.get s.dst a) ∧
        t = bufferDone dst s) := by
    obtain ⟨n, m, hl, ⟨-, rfl⟩ | ⟨rfl, rfl, rfl⟩ | ⟨-, rfl, _, _, p, dst, -, -, hp, hd, rfl⟩⟩ := gammaCommand_eq_next.mp h
    · exact .inl ⟨_, hi, rfl⟩
    · exact .inr ⟨s.dst, 0, hi, hl, fun _ _ => rfl, rfl⟩
    · exact .inr ⟨dst, n, hi, hl, (gammaRun_spec hp hd).2, rfl⟩
  cases i with
  | round =>
    obtain ⟨_, _, _, -, -, -, rfl⟩ := execRound_eq_next.mp h
    exact .inl ⟨_, rfl, rfl⟩
  | encblk =>
    obtain ⟨_, _, -, -, rfl⟩ := blockCommand_eq_next.mp h
    exact .inr (.inl ⟨_, .inl rfl, rfl⟩)
  | decblk =>
    obtain ⟨_, _, -, -, rfl⟩ := blockCommand_eq_next.mp h
    exact .inr (.inl ⟨_, .inr rfl, rfl⟩)
  | encecb => exact .inr (.inr (ecb (.inl (.inl rfl)) h))
  | dececb => exact .inr (.inr (ecb (.inl (.inr rfl)) h))
  | encgam => exact .inr (.inr (gam (.inr (.inl rfl)) h))
  | decgam => exact .inr (.inr (gam (.inr (.inr rfl)) h))

end Sys2Proof.Machine
end

