-- ==== Sys2Proof/Laws/Step.lean ====
section
/-! SUPPORT. What a step can do: one inversion lemma for each host action, and the register numbers both ways. -/

namespace Sys2Proof.Machine

@[simp] theorem ofNumber_number (reg : Reg) : Reg.ofNumber reg.number = some reg := by
  cases reg with
  | key i =>
    have h : 16 ≤ 16 + i.val ∧ 16 + i.val < 24 := by omega
    simp [Reg.ofNumber, Reg.number, h]
  | _ => rfl

/-- The number a register is found under is its own (R15). -/
theorem ofNumber_eq_some {n : Nat} {reg : Reg} (h : Reg.ofNumber n = some reg) : n = reg.number := by
  unfold Reg.ofNumber at h
  repeat' split at h
  all_goals first
    | cases h; simp only [Reg.number]; omega
    | cases h

/-- 10 to 15 and 24 upward name no register (R15). -/
theorem ofNumber_eq_none {n : Nat} (h : (10 ≤ n ∧ n ≤ 15) ∨ 24 ≤ n) : Reg.ofNumber n = none := by
  cases hr : Reg.ofNumber n with
  | none => rfl
  | some reg =>
    have hn := ofNumber_eq_some hr
    cases reg with
    | key i => simp only [Reg.number] at hn; omega
    | _ => simp only [Reg.number] at hn; omega

/-- A host write completes exactly so: a command that completes, or a value stored in one register. -/
theorem hostWrite_eq_next {n v : Nat} {s t : State} : hostWrite n v s = .next t ↔
    ∃ reg, Reg.ofNumber n = some reg ∧ reg.hostMayWrite = true ∧ v < 2 ^ reg.width s.cfg.lenw ∧
      ((reg = .cmd ∧ ∃ i, decode (BitVec.ofNat 32 v) = .ok i ∧ exec i s = .next t) ∨
       (reg ≠ .cmd ∧ t = putReg reg v s)) := by
  unfold hostWrite
  cases hr : Reg.ofNumber n with
  | none => simp
  | some reg =>
    simp only [Option.some.injEq, exists_eq_left']
    by_cases h1 : reg.hostMayWrite = true
    · by_cases h2 : v < 2 ^ reg.width s.cfg.lenw
      · by_cases h3 : reg = .cmd
        · simp only [h3, Nat.not_le.mpr (h3 ▸ h2)]
          unfold runCommandWord
          cases decode (BitVec.ofNat 32 v) <;> simp [Reg.hostMayWrite, h3 ▸ h2]
        · simp only [h1, h2, h3, Nat.not_le.mpr h2, if_false, Bool.true_eq_false, Host.Outcome.next.injEq, false_and,
            false_or, ne_eq, not_false_eq_true, true_and]
          exact eq_comm
      · simp [h1, h2, Nat.not_lt.mp h2]
    · simp [h1]

theorem hostRead_eq_next {n : Nat} {s t : State} : hostRead n s = .next t ↔
    ∃ reg v, Reg.ofNumber n = some reg ∧ reg.hostMayRead = true ∧ getReg reg s = .val v ∧
      t = withReply (.reg reg v) s := by
  unfold hostRead
  cases hr : Reg.ofNumber n with
  | none => simp
  | some reg =>
    by_cases h1 : reg.hostMayRead = true
    · simp only [h1, Bool.true_eq_false, if_false, andThen_eq_next, need_eq_next, Host.Outcome.next.injEq]
      constructor
      · rintro ⟨v, hv, rfl⟩; exact ⟨reg, v, rfl, h1, hv, rfl⟩
      · rintro ⟨_, v, he, -, hv, rfl⟩
        obtain rfl := Option.some.inj he
        exact ⟨v, hv, rfl⟩
    · simp only [h1, if_true, reduceCtorEq, false_iff]
      rintro ⟨_, v, he, hm, -⟩
      exact h1 (Option.some.inj he ▸ hm)

/-- What a register holds does not depend on the host's remaining actions. -/
@[simp] theorem getReg_withPending (reg : Reg) (as : List HostAction) (s : State) :
    getReg reg (withPending as s) = getReg reg s := by
  cases reg <;> rfl

theorem hostWriteSrc_eq_next {off : Nat} {bs : List Byte} {s t : State} : hostWriteSrc off bs s = .next t ↔
    inSpace s.cfg.lenw off bs.length = true ∧ t = putSrc off bs s := by
  unfold hostWriteSrc
  cases inSpace s.cfg.lenw off bs.length
  · simp
  · simpa using eq_comm

theorem hostReadDst_eq_next {off n : Nat} {s t : State} : hostReadDst off n s = .next t ↔
    inSpace s.cfg.lenw off n = true ∧ ∃ bs, readBytes .dst s.dst off n = .next bs ∧ t = withReply (.bytes off bs) s := by
  unfold hostReadDst
  cases inSpace s.cfg.lenw off n
  · simp
  · simp only [Bool.true_eq_false, if_false, andThen_eq_next, Host.Outcome.next.injEq, true_and]
    exact exists_congr fun bs => and_congr_right fun _ => eq_comm

/-- Everything a step that completes can have done. -/
theorem step_cases {s t : State} (h : step s = .next t) :
    (s.pending = [] ∧ t = s) ∨ ∃ a rest, s.pending = a :: rest ∧
      ((∃ i w, a = .wr 0 w ∧ w < 2 ^ 32 ∧ decode (BitVec.ofNat 32 w) = .ok i ∧ exec i (withPending rest s) = .next t) ∨
       (∃ reg v, a = .wr reg.number v ∧ reg ≠ .cmd ∧ reg.hostMayWrite = true ∧ v < 2 ^ reg.width s.cfg.lenw ∧
          t = putReg reg v (withPending rest s)) ∨
       (∃ reg v, a = .rd reg.number ∧ reg.hostMayRead = true ∧ getReg reg s = .val v ∧
          t = withReply (.reg reg v) (withPending rest s)) ∨
       (∃ off bs, a = .wrSrc off bs ∧ inSpace s.cfg.lenw off bs.length = true ∧ t = putSrc off bs (withPending rest s)) ∨
       (∃ off n bs, a = .rdDst off n ∧ inSpace s.cfg.lenw off n = true ∧ readBytes .dst s.dst off n = .next bs ∧
          t = withReply (.bytes off bs) (withPending rest s)) ∨
       (a = .reset ∧ t = coreReset (withPending rest s))) := by
  unfold step at h
  cases hp : s.pending with
  | nil => rw [hp] at h; exact .inl ⟨rfl, (Host.Outcome.next.inj h).symm⟩
  | cons a rest =>
    rw [hp] at h
    refine .inr ⟨a, rest, rfl, ?_⟩
    cases a with
    | wr n v =>
      obtain ⟨reg, hr, hw, hv, ⟨rfl, i, hi, he⟩ | ⟨hne, rfl⟩⟩ := hostWrite_eq_next.mp h
      · obtain rfl := ofNumber_eq_some hr
        exact .inl ⟨i, v, rfl, hv, hi, he⟩
      · obtain rfl := ofNumber_eq_some hr
        exact .inr (.inl ⟨reg, v, rfl, hne, hw, hv, rfl⟩)
    | rd n =>
      obtain ⟨reg, v, hr, hm, hg, rfl⟩ := hostRead_eq_next.mp h
      obtain rfl := ofNumber_eq_some hr
      exact .inr (.inr (.inl ⟨reg, v, rfl, hm, getReg_withPending reg rest s ▸ hg, rfl⟩))
    | wrSrc off bs =>
      obtain ⟨hin, rfl⟩ := hostWriteSrc_eq_next.mp h
      exact .inr (.inr (.inr (.inl ⟨off, bs, rfl, hin, rfl⟩)))
    | rdDst off n =>
      obtain ⟨hin, bs, hb, rfl⟩ := hostReadDst_eq_next.mp h
      exact .inr (.inr (.inr (.inr (.inl ⟨off, n, bs, rfl, hin, hb, rfl⟩))))
    | reset => exact .inr (.inr (.inr (.inr (.inr ⟨rfl, (Host.Outcome.next.inj h).symm⟩))))

end Sys2Proof.Machine
end

