-- ==== Sys2Proof/Laws/PerInstr.lean ====
section
/-! SUPPORT. What holds of each command as syntax, one lemma a constructor: its word has the format of R60 and is its row of
the opcode table. -/

namespace Sys2Proof.Laws.CommandWord

open Sys2Proof

/-- The command's word has op in bits 2:0, not 0, and zero in bits 31:3 (R60, R64), and its row of the table is the only one
the word matches. -/
def Statement (i : Instr) : Prop :=
  opField (encode i) = i.op ∧ i.op ≠ 0 ∧ zeroField (encode i) = 0 ∧
  opcodeTable.filter (fun row => encode i &&& row.mask == row.pattern) = [⟨i, encode i, 0xFFFFFFFF⟩]

theorem round : Statement .round := by unfold Statement; decide

theorem encblk : Statement .encblk := by unfold Statement; decide

theorem decblk : Statement .decblk := by unfold Statement; decide

theorem encecb : Statement .encecb := by unfold Statement; decide

theorem dececb : Statement .dececb := by unfold Statement; decide

theorem encgam : Statement .encgam := by unfold Statement; decide

theorem decgam : Statement .decgam := by unfold Statement; decide

end Sys2Proof.Laws.CommandWord
end

