-- ==== Sys2Proof/Tests/Slice0.lean ====
section
/-! SUPPORT. The model's own tests. Expected results come from spec/95_test_vectors.md (V<n>), from the bits of R60 and R61, and
from the worked examples of the rules. The last part shows, for each statement with hypotheses, inputs that meet them. -/

namespace Sys2Proof.Tests

open Sys2Proof Sys2Proof.Machine

set_option Elab.async false

/-! ### Helpers -/

/-- The outcome is a next state of which `p` is true. -/
def nextWith (o : Res State) (p : State → Bool) : Bool :=
  match o with
  | .next t => p t
  | .fault _ => false
  | .refused _ => false

/-- The outcome is the refusal `e`. -/
def refusedAs (o : Res State) (e : Refusal) : Bool :=
  match o with
  | .next _ => false
  | .fault _ => false
  | .refused x => x == e

/-- The state of a next state. -/
def resultOf (o : Res State) : State :=
  match o with
  | .next t => t
  | .fault _ => State.reset
  | .refused _ => State.reset

theorem eq_next_resultOf {o : Res State} (h : nextWith o (fun _ => true) = true) : o = .next (resultOf o) := by
  cases o with
  | next t => rfl
  | fault e => cases h
  | refused e => cases h

theorem eq_refused {o : Res State} {e : Refusal} (h : refusedAs o e = true) : o = .refused e := by
  cases o with
  | next t => cases h
  | fault x => cases h
  | refused x => exact congrArg _ (eq_of_beq h)

/-- Bytes at offset 0. -/
def bytesAt0 (bs : List Byte) : Memory := Memory.setBytes [] 0 bs

/-- The byte of a list at an index. -/
def byteFn (bs : List Byte) (a : Nat) : Byte := bs.getD a 0

/-- Reset, with every operand written: the operands of V1, V2 and V27, two lengths, some source bytes. -/
def loaded (n m : Nat) (bs : List Byte) : State :=
  { State.reset with
    key := vectorKey.map .val, rkey := .val 0xFFEEDDCC, l := .val 0x76543210, r := .val 0xFEDCBA98,
    bin := .val 0xFEDCBA9876543210, iv := .val 0x12345678, srcLen := .val n, dstLen := .val m, src := bytesAt0 bs }

/-- Reset, with the two lengths written. -/
def lengthsOnly (n m : Nat) : State := { State.reset with srcLen := .val n, dstLen := .val m }

/-- Reset, with a list of host actions. -/
def hosting (as : List HostAction) : State := { State.reset with pending := as }

/-- The key Z of 95_test_vectors.md. -/
def zeroKey : Vector (Held Word) 8 := vectorKey.map fun _ => .val 0

/-- The plaintext of V22. -/
def plain : List Byte :=
  [0x59, 0x0A, 0x13, 0x3C, 0x6B, 0xF0, 0xDE, 0x92] ++ [0x20, 0x9D, 0x18, 0xF8, 0x04, 0xC7, 0x54, 0xDB] ++
  [0x4C, 0x02, 0xA8, 0x67, 0x2E, 0xFB, 0x98, 0x4A] ++ [0x41, 0x7E, 0xB5, 0x17, 0x9B, 0x40, 0x12, 0x89]

/-- 00 01 ... 0F, the source of V21. -/
def counting : List Byte := [0, 1, 2, 3, 4, 5, 6, 7] ++ [8, 9, 10, 11, 12, 13, 14, 15]

/-! ### Decoding: words written out from R60 (bits 31:3 zero, op in bits 2:0) and R61 -/

theorem test_decode_round_word : decode 0b00000000000000000000000000000001 = .ok .round := by decide

theorem test_decode_encblk_word : decode 0b00000000000000000000000000000010 = .ok .encblk := by decide

theorem test_decode_decblk_word : decode 0b00000000000000000000000000000011 = .ok .decblk := by decide

theorem test_decode_encecb_word : decode 0b00000000000000000000000000000100 = .ok .encecb := by decide

theorem test_decode_dececb_word : decode 0b00000000000000000000000000000101 = .ok .dececb := by decide

theorem test_decode_encgam_word : decode 0b00000000000000000000000000000110 = .ok .encgam := by decide

theorem test_decode_decgam_word : decode 0b00000000000000000000000000000111 = .ok .decgam := by decide

/-- V36: the reserved words. -/
theorem test_decode_reserved_words : decode 0b00000000000000000000000000000000 = .error .opZero ∧
    decode 0b00000000000000000000000000001000 = .error (.highBitsSet 0x00000008) ∧
    decode 0b10000000000000000000000000000001 = .error (.highBitsSet 0x80000001) := by decide

/-- R61: the table's words and mnemonics, row by row; the host's numbering gives each. -/
theorem test_table_words_and_mnemonics :
    (opcodeTable.map fun row => (row.pattern.toNat, row.instr.mnemonic, decodeTableWord 32 row.pattern.toNat)) =
      [(1, "ROUND", some .round), (2, "ENCBLK", some .encblk), (3, "DECBLK", some .decblk), (4, "ENCECB", some .encecb),
       (5, "DECECB", some .dececb), (6, "ENCGAM", some .encgam), (7, "DECGAM", some .decgam)] := by decide

/-- R65 and program P1: the encoding of KEY, LEN and a command line. -/
theorem test_host_notation : encodeProgram
    [.key vectorKey, .len 0x10, .wr .iv 0x12345678, .rd .status, .command .encgam] =
      [(16, 0xFFEEDDCC), (17, 0xBBAA9988), (18, 0x77665544), (19, 0x33221100), (20, 0xF0F1F2F3), (21, 0xF4F5F6F7),
       (22, 0xF8F9FAFB), (23, 0xFCFDFEFF), (2, 0x10), (3, 0x10), (4, 0x12345678), (0, 0x00000006)] := by decide

/-! ### Well-formedness: one ill-formed action for each check -/

theorem test_wf_rejects_unnamed_number_write : (HostAction.wr 10 0).wf 64 = false ∧ (HostAction.wr 24 0).wf 64 = false := by
  decide

theorem test_wf_rejects_unnamed_number_read : (HostAction.rd 15).wf 64 = false := by decide

theorem test_wf_rejects_write_to_read_only : (HostAction.wr 1 0).wf 64 = false ∧ (HostAction.wr 9 0).wf 64 = false := by decide

theorem test_wf_rejects_read_of_write_only : (HostAction.rd 0).wf 64 = false := by decide

theorem test_wf_rejects_value_too_wide : (HostAction.wr 4 0x100000000).wf 64 = false ∧ (HostAction.wr 2 256).wf 8 = false := by
  decide

theorem test_wf_rejects_bytes_outside_the_space : (HostAction.wrSrc 255 [0, 0]).wf 8 = false ∧
    (HostAction.rdDst 256 1).wf 8 = false := by decide

theorem test_wf_rejects_program_with_one_ill_formed_action : programWf 64 [.wr 6 1, .rd 0, .rd 1] = false := by decide

theorem test_wf_accepts_the_largest_values : (HostAction.wr 4 0xFFFFFFFF).wf 64 = true ∧
    (HostAction.wr 8 0xFFFFFFFFFFFFFFFF).wf 64 = true ∧ (HostAction.wr 2 255).wf 8 = true ∧
    (HostAction.wrSrc 254 [0, 0]).wf 8 = true := by decide

/-! ### Arithmetic and substitution -/

/-- V14. -/
theorem test_rotl32 : rotl32 0x00000001 11 = 0x00000800 ∧ rotl32 0x80000000 11 = 0x00000400 ∧
    rotl32 0xFFE00000 11 = 0x000007FF ∧ rotl32 0x1857CB6C 11 = 0xBE5B60C2 := by decide

/-- V12. -/
theorem test_expand : expand defaultSbox 0x0000000F = 0x1857CB61 ∧ expand defaultSbox 0xF0000000 = 0x2857CB6C ∧
    expand defaultSbox 0x01234567 = 0x1EFADF59 ∧ expand defaultSbox 0x89ABCDEF = 0x448E3901 ∧
    expand defaultSbox 0xFDB97531 = 0x2A196F34 := by decide +kernel

/-- V13. -/
theorem test_byte_table : byteTable defaultSbox 0 0x10 = 0x0000008C ∧ byteTable defaultSbox 1 0xEF = 0x00009000 ∧
    byteTable defaultSbox 2 0x42 = 0x00950000 ∧ byteTable defaultSbox 3 0xFF = 0x27000000 := by decide +kernel

/-- R83: the inverse rows as the rule prints them. -/
theorem test_inverse_rows : ((List.finRange 8).map fun i => (List.range 16).map fun v =>
      (inverseEntry defaultSbox i (BitVec.ofNat 4 v)).toNat) =
    [[0xC, 0xF, 3, 0xD, 1, 5, 2, 0xB, 9, 7, 4, 6, 0, 0xA, 8, 0xE],
     [0xE, 8, 2, 3, 0xA, 6, 0, 0xB, 1, 4, 5, 0xC, 7, 0xD, 9, 0xF],
     [0xF, 9, 4, 1, 0xB, 2, 0xE, 0xA, 3, 0xD, 6, 0, 0xC, 7, 8, 5],
     [9, 3, 2, 0xC, 5, 0xB, 7, 8, 1, 0xE, 0xA, 0xF, 0, 4, 0xD, 6],
     [8, 5, 0xE, 0xA, 0xD, 2, 6, 0, 4, 9, 3, 0xC, 0xF, 7, 0xB, 1],
     [0xF, 0xB, 5, 0xD, 0xC, 0, 3, 9, 0xA, 4, 7, 8, 6, 1, 0xE, 2],
     [0xB, 6, 2, 0xE, 9, 3, 4, 0xF, 0, 5, 0xD, 0xA, 7, 0xC, 1, 8],
     [4, 0, 0xF, 7, 8, 5, 0xB, 1, 6, 0xC, 0xA, 0xE, 0xD, 3, 2, 9]] := by decide +kernel

/-- V15, the table of g. -/
theorem test_g : g defaultSbox 0xFEDCBA98 0x87654321 = 0xFDCBC20C ∧ g defaultSbox 0x7E791A4B 0xC76549EC = 0x9791C849 := by
  decide +kernel

/-- R114 (a), and the last rows of V17. -/
theorem test_encrypt_block : encryptBlock defaultSbox (.replicate 8 0xFFFFFFFF) 0xFFFFFFFFFFFFFFFF = 0xEB81AB2ACD2F88B5 ∧
    encryptBlock defaultSbox vectorKey 0x12345678FFFFFFFF = 0xA68D1FE85B8924F8 := by decide +kernel

/-! ### One or two tests for each command -/

/-- V1. -/
theorem test_round_known_answer : nextWith (exec .round (loaded 0 0 [])) (fun t =>
    t.l == .val 0x28DA3B14 && t.r == .val 0x76543210 && t.bout == .novalue && t.status == 0) = true := by decide +kernel

/-- V15, row 4: the addition wraps; K is not needed. -/
theorem test_round_wraps : nextWith (exec .round
      { State.reset with l := .val 0xFFFFFFFF, r := .val 0xFFFFFFFF, rkey := .val 1 }) (fun t =>
    t.l == .val 0x41A49F3D && t.r == .val 0xFFFFFFFF && t.rkey == .val 1) = true := by decide +kernel

/-- V2. -/
theorem test_encblk_known_answer : nextWith (exec .encblk (loaded 0 0 [])) (fun t =>
    t.bout == .val 0x4EE901E5C2D8CA3D && t.l == .novalue && t.r == .novalue && t.status == 0) = true := by decide +kernel

/-- V17, rows 3 and 4: the halves are not exchanged. -/
theorem test_encblk_halves : nextWith (exec .encblk { State.reset with key := zeroKey, bin := .val 0x0000000100000000 })
      (fun t => t.bout == .val 0x477E14ABC2198B42) = true ∧
    nextWith (exec .encblk { State.reset with key := zeroKey, bin := .val 0x0000000000000001 })
      (fun t => t.bout == .val 0x7F28D3E24AAA67F1) = true := by decide +kernel

/-- V3. -/
theorem test_decblk_known_answer : nextWith (exec .decblk { loaded 0 0 [] with bin := .val 0x4EE901E5C2D8CA3D }) (fun t =>
    t.bout == .val 0xFEDCBA9876543210 && t.l == .novalue && t.r == .novalue && t.status == 0) = true := by decide +kernel

/-- V17, row 5: under K the two directions differ. -/
theorem test_decblk_of_zero : nextWith (exec .decblk { loaded 0 0 [] with bin := .val 0 }) (fun t =>
    t.bout == .val 0x28EFC26980015740) = true := by decide +kernel

/-- V22. -/
theorem test_encecb_four_chunks : nextWith (exec .encecb (loaded 32 32 plain)) (fun t =>
    t.dst == bytesAt0 ([0xA0, 0x72, 0xF3, 0x94, 0x04, 0x3F, 0x07, 0x2B] ++ [0x48, 0x6E, 0x55, 0xD3, 0x15, 0xE7, 0x70, 0xDE] ++
      [0x1E, 0xBC, 0xCF, 0xEA, 0xE9, 0xD9, 0xD8, 0x11] ++ [0xFB, 0x7E, 0xC6, 0x96, 0x09, 0x26, 0x68, 0x7C]) &&
    t.status == 0 && t.bout == .novalue) = true := by decide +kernel

/-- V23, row 12/16: both conditions fail; alignment is tested first; DST and L are kept. -/
theorem test_encecb_alignment_first : nextWith (exec .encecb (loaded 12 16 plain)) (fun t =>
    t.status == 1 && t.dst == [] && t.l == .val 0x76543210) = true := by decide +kernel

/-- V21, DECECB line. -/
theorem test_dececb_two_chunks : nextWith (exec .dececb (loaded 16 16 counting)) (fun t =>
    t.dst == bytesAt0 ([0x0B, 0x96, 0x2A, 0x60, 0x13, 0x8B, 0x96, 0x19] ++ [0x81, 0x3E, 0xDF, 0x18, 0x24, 0x12, 0xE9, 0x90]) &&
    t.status == 0) = true := by decide +kernel

/-- V23, row 16/12: only SRC_LEN is tested for alignment. -/
theorem test_dececb_mismatch : nextWith (exec .dececb (loaded 16 12 plain)) (fun t => t.status == 2 && t.dst == []) = true := by
  decide +kernel

/-- V26, row 11: a tail of three bytes; DST[11] is not written. -/
theorem test_encgam_tail : nextWith (exec .encgam (loaded 11 11 plain)) (fun t =>
    t.dst == bytesAt0 [0x3C, 0xB9, 0xB7, 0x97, 0x0C, 0x11, 0x98, 0x4E, 0x69, 0x5D, 0xE8] && t.iv == .val 0x12345678 &&
    t.status == 0) = true := by decide +kernel

/-- P6, lines 3 and 9: an empty buffer needs no operand, a buffer of one byte does. -/
theorem test_encgam_empty_and_refused : nextWith (exec .encgam (lengthsOnly 0 0)) (fun t => t.status == 0) = true ∧
    refusedAs (exec .encgam (lengthsOnly 1 1)) (.noValue .iv) = true := by decide +kernel

/-- V28, last part: another IV, DECGAM uses the encryption direction and raises no error. -/
theorem test_decgam_other_iv : nextWith (exec .decgam { loaded 11 11
      [0x3C, 0xB9, 0xB7, 0x97, 0x0C, 0x11, 0x98, 0x4E, 0x69, 0x5D, 0xE8] with iv := .val 0x12345679 }) (fun t =>
    t.dst == bytesAt0 [0x30, 0x92, 0xDC, 0x35, 0x76, 0x92, 0x9D, 0x59, 0x9C, 0x3B, 0xC2] && t.status == 0) = true := by
  decide +kernel

/-- V36, V32: lengths that differ; a command that needs no operand beyond the lengths. -/
theorem test_decgam_mismatch : nextWith (exec .decgam (lengthsOnly 0 1)) (fun t => t.status == 2 && t.dst == []) = true := by
  decide +kernel

/-! ### The host's side -/

/-- V36: reset, `RD STATUS` and `RD BOUT`. -/
theorem test_read_after_reset : nextWith (step (hosting [.rd 1])) (fun t => t.replies == [.reg .status 0]) = true ∧
    refusedAs (step (hosting [.rd 9])) (.noValue .bout) = true := by decide +kernel

/-- V36: rows that the spec says are refused, a register never written and a register a command has discarded. -/
theorem test_novalue_is_refused : refusedAs (exec .encblk State.reset) (.noValue .bin) = true ∧
    nextWith (exec .encblk (loaded 0 0 [])) (fun t => refusedAs (exec .round t) (.noValue .l)) = true ∧
    refusedAs (exec .encecb { State.reset with srcLen := .val 8 }) (.noValue .dstLen) = true := by decide +kernel

/-- V36: the host's own violations. -/
theorem test_host_violations : refusedAs (step (hosting [.wr 1 0])) (.notWritable .status) = true ∧
    refusedAs (step (hosting [.rd 0])) (.notReadable .cmd) = true ∧
    refusedAs (step (hosting [.wr 0 8])) (.reservedWord (.highBitsSet 8)) = true ∧
    refusedAs (step (hosting [.wr 0 0])) (.reservedWord .opZero) = true := by decide +kernel

/-- P3, lines 2 and 6: the two buffer accesses. -/
theorem test_buffer_accesses : nextWith (step (hosting [.wrSrc 3 [0x11, 0x22]])) (fun t =>
      Memory.get t.src 3 == .val 0x11 && Memory.get t.src 4 == .val 0x22 && Memory.get t.src 5 == .novalue) = true ∧
    nextWith (step { hosting [.rdDst 8 2] with dst := bytesAt0 counting }) (fun t => t.replies == [.bytes 8 [8, 9]]) = true := by
  decide +kernel

/-- Every table word, placed by the model's `withFetchWord`, runs as the first command after reset (log entry 4). -/
theorem test_placed_words_run : ([1, 2, 3, 4, 5, 6, 7].all fun w =>
    nextWith (step (State.reset.withFetchWord 32 w)) fun t => t.status == 0) = true := by decide +kernel

/-! ### Witnesses: inputs that meet the hypotheses of each statement, clause by clause, at the ends of their ranges -/

/-- A buffer with two equal chunks, the last part of V21. -/
def zeros16 : List Byte := .replicate 16 0

/-- The ciphertext of R131's worked example. -/
def cipher9 : List Byte := [0x3C, 0xB9, 0xB7, 0x97, 0x0C, 0x11, 0x98, 0x4E, 0x69]

theorem witness_DecodeAcceptsExactlyTheTable : Instr.round.wf = true ∧ Instr.decgam.wf = true := by decide +kernel

theorem witness_ReservedWordsAreRefused : (hosting [.wr 0 (0 : Word).toNat]).pending = [.wr 0 (0 : Word).toNat] ∧
    (0 : Word).extractLsb' 0 3 = 0 ∧ (hosting [.wr 0 (9 : Word).toNat]).pending = [.wr 0 (9 : Word).toNat] ∧
    (9 : Word).extractLsb' 3 29 ≠ 0 := by decide +kernel

theorem witness_StepRunsTheDecodedCommand : (hosting [.wr 0 (7 : Word).toNat, .rd 1]).pending = .wr 0 (7 : Word).toNat :: [.rd 1] ∧
    decode 7 = .ok .decgam := by decide +kernel

theorem witness_PlacedWordRunsItsCommand : decode 1 = .ok .round := by decide +kernel

theorem witness_IdleStepKeepsAllState : State.reset.pending = [] := by decide +kernel

theorem witness_RotationMovesEveryBit : (0 < 1 ∧ 1 < 32 ∧ 0 < 32) ∧ (0 < 31 ∧ 31 < 32 ∧ 31 < 32) := by decide +kernel

theorem witness_ExpandIsABijection : defaultSbox.RowsArePermutations := by decide +kernel

theorem witness_KeyScheduleSelects : (23 : Fin 32).val ≤ 23 ∧ 24 ≤ (24 : Fin 32).val ∧ (7 : Fin 32).val ≤ 7 ∧
    8 ≤ (8 : Fin 32).val := by decide +kernel

theorem witness_PalindromicKeysMakeDirectionsCoincide :
    ∃ key : Key, (∀ i : Fin 8, key[i] = key[7 - i.val]) ∧ key[0] ≠ key[1] :=
  ⟨#v[1, 2, 3, 4, 4, 3, 2, 1], by decide +kernel⟩

/-- A state with one key register unwritten. -/
def lacksKey7 (s : State) : State := { s with key := s.key.set 7 .novalue }

theorem lacksKey7_spec (s : State) : ∃ k : Fin 8, (lacksKey7 s).key[k] = .novalue := ⟨7, by simp [lacksKey7]⟩

theorem witness_RoundCommandResult : ((loaded 0 0 []).l = .val 0x76543210 ∧ (loaded 0 0 []).r = .val 0xFEDCBA98 ∧
    (loaded 0 0 []).rkey = .val 0xFFEEDDCC) ∧ { loaded 0 0 [] with l := .novalue }.l = .novalue ∧
    { loaded 0 0 [] with r := .novalue }.r = .novalue ∧ State.reset.rkey = .novalue := by decide +kernel

theorem witness_BlockCommandResult :
    ((.encblk, .enc) ∈ blockInstrs ∧ (.decblk, .dec) ∈ blockInstrs ∧
      (loaded 0 0 []).bin = .val 0xFEDCBA9876543210 ∧ (loaded 0 0 []).HoldsKey vectorKey) ∧
    State.reset.bin = .novalue ∧ ∃ k : Fin 8, (lacksKey7 (loaded 0 0 [])).key[k] = .novalue :=
  ⟨by decide +kernel, rfl, lacksKey7_spec _⟩

theorem witness_EcbCommandResult :
    ((.encecb, .enc) ∈ ecbInstrs ∧ (.dececb, .dec) ∈ ecbInstrs ∧ (loaded 16 16 counting).Lengths 16 16 ∧ 16 % 8 = 0 ∧
      (loaded 16 16 counting).HoldsKey vectorKey ∧ (loaded 16 16 counting).HoldsSource 16 (byteFn counting)) ∧
    (0 < 16 / 8 ∧ 1 < 16 / 8) ∧ ((loaded 0 0 []).Lengths 0 0 ∧ (loaded 0 0 []).HoldsSource 0 (byteFn [])) ∧
    (State.reset.srcLen = .novalue ∧ { lengthsOnly 8 8 with dstLen := .novalue }.dstLen = .novalue) ∧
    ((lacksKey7 (loaded 8 8 plain)).Lengths 8 8 ∧ ∃ k : Fin 8, (lacksKey7 (loaded 8 8 plain)).key[k] = .novalue) ∧
    (loaded 8 8 (plain.take 7)).Lengths 8 8 ∧ 7 < 8 ∧ Memory.get (loaded 8 8 (plain.take 7)).src 7 = .novalue :=
  ⟨by decide +kernel, by decide +kernel, by decide +kernel, by decide +kernel, ⟨⟨rfl, rfl⟩, lacksKey7_spec _⟩,
    by decide +kernel⟩

theorem witness_EqualChunksGiveEqualChunks : ∃ s t : State, exec .encecb s = .next t ∧ t.status = 0 ∧ s.srcLen = .val 16 ∧
    0 < 16 / 8 ∧ 1 < 16 / 8 ∧
    ∀ k, k < 8 → Memory.get s.src (chunkOffset 0 + k) = Memory.get s.src (chunkOffset 1 + k) :=
  ⟨loaded 16 16 zeros16, _, eq_next_resultOf (by decide +kernel), by decide +kernel⟩

theorem witness_EcbDirectionsInvertEachOther : ∃ s t u : State,
    exec .encecb s = .next t ∧ t.status = 0 ∧ exec .dececb s = .next u ∧ u.status = 0 ∧ s.srcLen = .val 16 :=
  ⟨loaded 16 16 counting, _, _, eq_next_resultOf (by decide +kernel), by decide +kernel,
    eq_next_resultOf (by decide +kernel), by decide +kernel⟩

theorem witness_GammaCommandClosedForm :
    ((loaded 9 9 plain).Lengths 9 9 ∧ (loaded 9 9 plain).iv = .val 0x12345678 ∧
      (loaded 9 9 plain).HoldsKey vectorKey ∧ (loaded 9 9 plain).HoldsSource 9 (byteFn plain) ∧
      (loaded 0 0 []).Lengths 0 0 ∧ (loaded 0 0 []).HoldsSource 0 (byteFn [])) ∧
    (State.reset.srcLen = .novalue ∧ { lengthsOnly 8 8 with dstLen := .novalue }.dstLen = .novalue) ∧
    ((lengthsOnly 1 1).Lengths 1 1 ∧ (lengthsOnly 1 1).iv = .novalue) ∧
    ((lacksKey7 (loaded 9 9 plain)).Lengths 9 9 ∧ ∃ k : Fin 8, (lacksKey7 (loaded 9 9 plain)).key[k] = .novalue) ∧
    (loaded 9 9 (plain.take 8)).Lengths 9 9 ∧ 8 < 9 ∧ Memory.get (loaded 9 9 (plain.take 8)).src 8 = .novalue :=
  ⟨by decide +kernel, by decide +kernel, by decide +kernel, ⟨⟨rfl, rfl⟩, lacksKey7_spec _⟩, by decide +kernel⟩

theorem witness_GammaCommandsAreOneFunction : (loaded 9 9 cipher9).cfg.sbox = defaultSbox ∧
    (loaded 9 9 cipher9).HoldsKey vectorKey ∧ (loaded 9 9 cipher9).iv = .val 0x12345678 ∧ (loaded 9 9 cipher9).Lengths 9 9 ∧
    readBytes .src (loaded 9 9 cipher9).src 0 9 = .next [0x3C, 0xB9, 0xB7, 0x97, 0x0C, 0x11, 0x98, 0x4E, 0x69] :=
  ⟨rfl, by decide +kernel, rfl, by decide +kernel, rfl⟩

theorem witness_GammaIsSelfInverse : ∃ s t : State, exec .encgam s = .next t ∧ t.status = 0 ∧ s.srcLen = .val 9 :=
  ⟨loaded 9 9 plain, _, eq_next_resultOf (by decide +kernel), by decide +kernel⟩

theorem witness_GammaIsMalleable : ∃ (s t t' : State) (src' : Memory) (b b' c c' : Byte),
    exec .encgam s = .next t ∧ exec .encgam { s with src := src' } = .next t' ∧ t.status = 0 ∧ s.srcLen = .val 9 ∧
    Memory.get s.src 8 = .val b ∧ Memory.get src' 8 = .val b' ∧ Memory.get t.dst 8 = .val c ∧ Memory.get t'.dst 8 = .val c' :=
  ⟨loaded 9 9 plain, _, _, bytesAt0 counting, 0x20, 8, 0x69, 0x41, eq_next_resultOf (by decide +kernel),
    eq_next_resultOf (by decide +kernel), by decide +kernel⟩

theorem witness_GammaOutputsArePrefixes : ∃ s t : State, exec .encgam s = .next t ∧ t.status = 0 ∧ s.srcLen = .val 9 ∧
    0 ≤ 9 ∧ 7 ≤ 9 ∧ 9 ≤ 9 :=
  ⟨loaded 9 9 plain, _, eq_next_resultOf (by decide +kernel), by decide +kernel⟩

theorem witness_EncblkMakesAGammaShard : ∃ s u v : State, s.HoldsKey vectorKey ∧ u.cfg.sbox = s.cfg.sbox ∧ u.HoldsKey vectorKey ∧
    u.iv = .val 0x12345678 ∧ exec .encgam u = .next v ∧ v.status = 0 ∧ u.srcLen = .val 9 ∧
    (7 / 8 = 0 ∧ Memory.get u.src 7 = .val 0x92) ∧ 8 / 8 = 1 ∧ Memory.get u.src 8 = .val 0x20 :=
  ⟨loaded 0 0 [], loaded 9 9 plain, _, by decide +kernel, rfl, by decide +kernel, rfl, eq_next_resultOf (by decide +kernel), by decide +kernel⟩

theorem witness_CounterStartsAndIncrements : (∃ p, gammaChunks id (bytesAt0 counting) 0 0 5 [] = .next p) ∧
    ∃ p, gammaChunks id (bytesAt0 counting) 2 0 0xFFFFFFFFFFFFFFFF [] = .next p :=
  ⟨⟨_, rfl⟩, ⟨_, rfl⟩⟩

theorem witness_EmptyBufferNeedsNoOperands : (lengthsOnly 0 0).Lengths 0 0 := by decide +kernel

theorem witness_UnalignedLengthIsReported :
    ((lengthsOnly 7 9).Lengths 7 9 ∧ 7 % 8 ≠ 0) ∧
    (∃ t, (lengthsOnly 7 7).srcLen = .val 7 ∧ exec .encecb (lengthsOnly 7 7) = .next t) ∧
    (∃ t, (loaded 8 8 plain).srcLen = .val 8 ∧ exec .dececb (loaded 8 8 plain) = .next t) ∧
    ∃ t, exec .encgam (loaded 7 7 plain) = .next t :=
  ⟨by decide +kernel, ⟨_, rfl, eq_next_resultOf (by decide +kernel)⟩, ⟨_, rfl, eq_next_resultOf (by decide +kernel)⟩,
    ⟨_, eq_next_resultOf (by decide +kernel)⟩⟩

theorem witness_LengthMismatchIsReported :
    ((lengthsOnly 7 8).Lengths 7 8 ∧ 7 ≠ 8) ∧ ((lengthsOnly 8 16).Lengths 8 16 ∧ 8 % 8 = 0 ∧ 8 ≠ 16) ∧
    (∃ t, (loaded 7 7 plain).Lengths 7 7 ∧ exec .encgam (loaded 7 7 plain) = .next t) ∧
    (∃ t, (lengthsOnly 7 9).Lengths 7 9 ∧ exec .encecb (lengthsOnly 7 9) = .next t) ∧
    ∃ t, (lengthsOnly 16 8).Lengths 16 8 ∧ exec .dececb (lengthsOnly 16 8) = .next t :=
  ⟨by decide +kernel, by decide +kernel, ⟨_, by decide +kernel, eq_next_resultOf (by decide +kernel)⟩,
    ⟨_, by decide +kernel, eq_next_resultOf (by decide +kernel)⟩, ⟨_, by decide +kernel, eq_next_resultOf (by decide +kernel)⟩⟩

theorem witness_ErrorsArePrecise : (∃ t, exec .encecb (lengthsOnly 7 9) = .next t ∧ t.status ≠ 0) ∧
    ∃ t, exec .decgam (lengthsOnly 0 1) = .next t ∧ t.status ≠ 0 :=
  ⟨⟨_, eq_next_resultOf (by decide +kernel), by decide +kernel⟩, ⟨_, eq_next_resultOf (by decide +kernel), by decide +kernel⟩⟩

theorem witness_StatusCodesAreClosed : (∃ t, exec .round (loaded 0 0 []) = .next t) ∧
    (∃ t, exec .decblk (loaded 0 0 []) = .next t) ∧ ∃ t, exec .encecb (lengthsOnly 7 9) = .next t :=
  ⟨⟨_, eq_next_resultOf (by decide +kernel)⟩, ⟨_, eq_next_resultOf (by decide +kernel)⟩, ⟨_, eq_next_resultOf (by decide +kernel)⟩⟩

theorem witness_CommandsCompleteExactlyWhenReady : Ready .round (loaded 0 0 []) ∧ Ready .encblk (loaded 0 0 []) ∧
    Ready .dececb (lengthsOnly 7 9) ∧ Ready .encgam (loaded 9 9 plain) ∧ ¬ Ready .round State.reset :=
  ⟨by unfold Ready; decide +kernel, by unfold Ready; decide +kernel, ⟨7, 9, by decide +kernel, fun h => absurd h (by decide +kernel)⟩,
    ⟨9, 9, by decide +kernel, fun _ _ => by decide +kernel⟩, by unfold Ready; decide +kernel⟩

theorem witness_CommandsRefuseOnlyNovalue : exec .encblk State.reset = .refused (.noValue .bin) ∧
    exec .dececb (loaded 8 8 (counting.take 7)) = .refused (.noValueByte .src 7) :=
  ⟨eq_refused (by decide +kernel), eq_refused (by decide +kernel)⟩

theorem witness_CommandsKeepOperands : (∃ t, exec .round (loaded 0 0 []) = .next t) ∧
    (∃ t, exec .encblk (loaded 0 0 []) = .next t) ∧ ∃ t, exec .encgam (loaded 9 9 plain) = .next t :=
  ⟨⟨_, eq_next_resultOf (by decide +kernel)⟩, ⟨_, eq_next_resultOf (by decide +kernel)⟩, ⟨_, eq_next_resultOf (by decide +kernel)⟩⟩

theorem witness_SuccessDiscardsUnnamedResults : (∃ t, exec .round (loaded 0 0 []) = .next t ∧ t.status = 0) ∧
    (∃ t, exec .encblk (loaded 0 0 []) = .next t ∧ t.status = 0) ∧
    (∃ t, exec .encecb (loaded 8 8 plain) = .next t ∧ t.status = 0) ∧
    ∃ t, exec .encecb (loaded 7 8 plain) = .next t ∧ t.status ≠ 0 :=
  ⟨⟨_, eq_next_resultOf (by decide +kernel), by decide +kernel⟩, ⟨_, eq_next_resultOf (by decide +kernel), by decide +kernel⟩,
    ⟨_, eq_next_resultOf (by decide +kernel), by decide +kernel⟩, ⟨_, eq_next_resultOf (by decide +kernel), by decide +kernel⟩⟩

theorem witness_BufferFootprint :
    (∃ s t s' t' : State, exec .encgam s = .next t ∧ t.status = 0 ∧ s.Lengths 9 9 ∧ s'.cfg.sbox = s.cfg.sbox ∧ s'.Lengths 9 9 ∧
      s'.key = s.key ∧ s'.iv = s.iv ∧ (∀ a, a < 9 → Memory.get s'.src a = Memory.get s.src a) ∧
      Memory.get s'.src 9 ≠ Memory.get s.src 9 ∧ exec .encgam s' = .next t') ∧
    ∃ t, exec .encecb (loaded 7 8 plain) = .next t ∧ t.status ≠ 0 :=
  ⟨⟨loaded 9 9 plain, _, loaded 9 9 (plain.take 9), _, eq_next_resultOf (by decide +kernel), by decide +kernel, by decide +kernel,
      rfl, by decide +kernel, rfl, rfl, by decide +kernel, by decide +kernel, eq_next_resultOf (by decide +kernel)⟩,
    ⟨_, eq_next_resultOf (by decide +kernel), by decide +kernel⟩⟩

/-- The first `n` bytes of the plaintext are those of the plaintext cut to `n` bytes. -/
theorem plain_agrees (n : Nat) (h : n ≤ 32) : ∀ k a, (loaded n n plain).srcLen = .val k → a < k →
    Memory.get (bytesAt0 plain) a = Memory.get (bytesAt0 (plain.take n)) a := by
  intro k a hk ha
  obtain rfl : n = k := Held.val.inj hk
  have table : ∀ n : Fin 33, ∀ a : Fin 32, a.val < n.val →
      Memory.get (bytesAt0 plain) a.val = Memory.get (bytesAt0 (plain.take n.val)) a.val := by decide +kernel
  exact table ⟨n, by omega⟩ ⟨a, by omega⟩ ha

theorem witness_CommandsDependOnlyOnTheirReads :
    (∃ s s' t : State, AgreeOnReads .round s s' ∧ s.key ≠ s'.key ∧ exec .round s = .next t) ∧
    (∃ s s' t : State, AgreeOnReads .encblk s s' ∧ s.status ≠ s'.status ∧ s.iv ≠ s'.iv ∧ exec .encblk s = .next t) ∧
    (∃ s s' t : State, AgreeOnReads .dececb s s' ∧ s.iv ≠ s'.iv ∧ s.src ≠ s'.src ∧ exec .dececb s = .next t) ∧
    ∃ s s' t : State, AgreeOnReads .encgam s s' ∧ s.bin ≠ s'.bin ∧ s.src ≠ s'.src ∧ exec .encgam s = .next t :=
  ⟨⟨loaded 0 0 [], { loaded 0 0 [] with key := State.reset.key }, _, ⟨rfl, rfl, rfl, rfl⟩, by decide +kernel,
      eq_next_resultOf (by decide +kernel)⟩,
    ⟨loaded 9 9 plain, { loaded 0 8 [] with status := 2, iv := .novalue }, _, ⟨rfl, rfl, rfl⟩, by decide +kernel,
      by decide +kernel, eq_next_resultOf (by decide +kernel)⟩,
    ⟨loaded 8 8 plain, { loaded 8 8 (plain.take 8) with iv := .novalue }, _, ⟨rfl, rfl, rfl, rfl, plain_agrees 8 (by decide)⟩,
      by decide +kernel, by decide +kernel, eq_next_resultOf (by decide +kernel)⟩,
    ⟨loaded 9 9 plain, { loaded 9 9 (plain.take 9) with bin := .novalue }, _,
      ⟨rfl, rfl, rfl, rfl, rfl, plain_agrees 9 (by decide)⟩, by decide +kernel, by decide +kernel,
      eq_next_resultOf (by decide +kernel)⟩⟩

theorem witness_MemReadIsLittleEndian :
    (1 ≤ 1 ∧ 1 ≤ 8 ∧ ∀ k, k < 1 → Memory.get (bytesAt0 counting) (15 + k) = .val (byteFn counting (15 + k))) ∧
    (1 ≤ 8 ∧ 8 ≤ 8 ∧ ∀ k, k < 8 → Memory.get (bytesAt0 counting) (8 + k) = .val (byteFn counting (8 + k))) ∧
    readBytes .src (bytesAt0 [0x10, 0x32, 0x54, 0x76, 0x98, 0xBA, 0xDC, 0xFE]) 0 8 =
      .next [0x10, 0x32, 0x54, 0x76, 0x98, 0xBA, 0xDC, 0xFE] := ⟨by decide +kernel, by decide +kernel, rfl⟩

theorem witness_MemWriteIsLittleEndian : (1 ≤ 1 ∧ 1 ≤ 8 ∧ 0 < 1) ∧ (1 ≤ 8 ∧ 8 ≤ 8 ∧ 7 < 8) ∧
    (7 < 8 ∨ 8 + 8 ≤ 7) ∧ (16 < 8 ∨ 8 + 8 ≤ 16) := by decide +kernel

theorem witness_HostWriteSetsOneRegister :
    ((hosting [.wr (Reg.key 7).number 0xFFFFFFFF]).pending = .wr (Reg.key 7).number 0xFFFFFFFF :: [] ∧
      (Reg.key 7).hostMayWrite = true ∧ Reg.key 7 ≠ .cmd ∧ 0xFFFFFFFF < 2 ^ (Reg.key 7).width 64) ∧
    (hosting [.wr Reg.dstLen.number 0]).pending = .wr Reg.dstLen.number 0 :: [] ∧ Reg.dstLen.hostMayWrite = true ∧
    Reg.dstLen ≠ .cmd ∧ 0 < 2 ^ Reg.dstLen.width 64 := by decide +kernel

theorem witness_HostReadBringsTheValue : (hosting [.rd Reg.status.number]).pending = .rd Reg.status.number :: [] ∧
    Reg.status.hostMayRead = true ∧ getReg .status (hosting [.rd 1]) = .val 0 ∧
    (hosting [.rd Reg.bout.number]).pending = .rd Reg.bout.number :: [] ∧ Reg.bout.hostMayRead = true ∧
    getReg .bout (hosting [.rd 9]) = .novalue := by decide +kernel

theorem witness_HostViolationsAreTurnedAway :
    (((10 ≤ 10 ∧ 10 ≤ 15) ∨ 24 ≤ 10) ∧ ((10 ≤ 15 ∧ 15 ≤ 15) ∨ 24 ≤ 15) ∧ ((10 ≤ 24 ∧ 24 ≤ 15) ∨ 24 ≤ 24)) ∧
    ((hosting [.wr 10 0]).pending = .wr 10 0 :: [] ∧ (hosting [.rd 24]).pending = .rd 24 :: []) ∧
    ((hosting [.wr 1 0]).pending = .wr 1 0 :: [] ∧ (hosting [.wr 9 0]).pending = .wr 9 0 :: [] ∧
      (hosting [.rd 0]).pending = .rd 0 :: []) ∧
    (hosting [.wr 4 0x100000000]).pending = .wr 4 0x100000000 :: [] ∧
    (HostAction.wr 4 0x100000000).wf (hosting []).cfg.lenw = false := by decide +kernel

theorem witness_HostReachesTheBuffers :
    ((hosting [.wrSrc (2 ^ 64 - 1) [7]]).pending = .wrSrc (2 ^ 64 - 1) [7] :: [] ∧
      2 ^ 64 - 1 + [(7 : Byte)].length ≤ 2 ^ (hosting []).cfg.lenw) ∧
    (∃ s : State, s.pending = .rdDst 0 counting.length :: [] ∧ 0 + counting.length ≤ 2 ^ s.cfg.lenw ∧
      ∀ k, (h : k < counting.length) → Memory.get s.dst (0 + k) = .val counting[k]) ∧
    (hosting [.rdDst (2 ^ 64 - 2) 2]).pending = .rdDst (2 ^ 64 - 2) 2 :: [] ∧ 2 ^ 64 - 2 + 2 ≤ 2 ^ (hosting []).cfg.lenw ∧
    1 < 2 ∧ Memory.get (hosting []).dst (2 ^ 64 - 2 + 1) = .novalue :=
  ⟨by decide +kernel, ⟨{ hosting [.rdDst 0 16] with dst := bytesAt0 counting }, by decide +kernel⟩, by decide +kernel⟩

theorem witness_ResetLeavesNovalue : (hosting [.reset]).pending = .reset :: [] := by decide +kernel

theorem reset_inv : State.reset.Inv where
  cfg := by decide +kernel
  srcWf := by decide +kernel
  dstWf := by decide +kernel
  srcWithin := fun _ h => by cases h
  dstWithin := fun _ h => by cases h
  srcLen := trivial
  dstLen := trivial
  status := .inl rfl

theorem witness_EveryStepKeepsTheInvariant : ∃ s t : State, s.Inv ∧ step s = .next t ∧ t.src ≠ s.src :=
  ⟨hosting [.wrSrc 0 [1, 2]], _,
    ⟨reset_inv.cfg, reset_inv.srcWf, reset_inv.dstWf, reset_inv.srcWithin, reset_inv.dstWithin, trivial, trivial, .inl rfl⟩,
    eq_next_resultOf (by decide +kernel), by decide +kernel⟩

theorem witness_RomAndWidthNeverChange : ∃ t, step (hosting [.wr 2 8]) = .next t :=
  ⟨_, eq_next_resultOf (by decide +kernel)⟩

theorem witness_EveryChangeHasItsCause :
    (∃ s t : State, step s = .next t ∧ getReg .bout t ≠ getReg .bout s) ∧
    (∃ s t : State, step s = .next t ∧ getReg (.key 7) t ≠ getReg (.key 7) s) ∧
    (∃ s t : State, step s = .next t ∧ Memory.get t.src 1 ≠ Memory.get s.src 1) ∧
    ∃ s t : State, step s = .next t ∧ Memory.get t.dst 8 ≠ Memory.get s.dst 8 :=
  ⟨⟨{ loaded 0 0 [] with pending := [.wr 0 2] }, _, eq_next_resultOf (by decide +kernel), by decide +kernel⟩,
    ⟨hosting [.wr 23 5], _, eq_next_resultOf (by decide +kernel), by decide +kernel⟩,
    ⟨hosting [.wrSrc 0 [1, 2]], _, eq_next_resultOf (by decide +kernel), by decide +kernel⟩,
    ⟨{ loaded 9 9 plain with pending := [.wr 0 6] }, _, eq_next_resultOf (by decide +kernel), by decide +kernel⟩⟩

theorem stepInstance_head {s t : State} (h : step s = .next t) (rest : Instances) :
    stepInstance 0 (s :: rest) = .next (t :: rest) := by
  simp [stepInstance, h]

theorem witness_InstancesDoNotInteract : ∃ is js : Instances, stepInstance 0 is = .next js ∧ (0 : Nat) ≠ 1 ∧ is.ShareSbox ∧
    js ≠ is :=
  ⟨[hosting [.wr 2 8], State.reset], _, stepInstance_head (eq_next_resultOf (by decide +kernel)) _, Nat.zero_ne_one,
    by unfold Instances.ShareSbox; decide +kernel, by decide +kernel⟩

end Sys2Proof.Tests
end

/-! PROOFS. The substitution layer (40_substitution.md): `expand` nibble by nibble (R82) and its byte-wide form (R84). -/

namespace Sys2Proof.Machine

/-! ### `expand`, nibble by nibble -/

/-- R82: `expand` acts at every nibble position by that position's row. -/
@[simp] theorem nibble_expand (sb : Sbox) (t : Word) (i : Fin 8) :
    nibble (expand sb t) i = sboxEntry sb i (nibble t i) :=
  nibble_mapNibbles (sboxEntry sb) t i

/-- Settles O10: `mapNibbles` acts position by position; the corner values and the example are evaluated. -/
theorem expandSubstitutesEachNibble : Obligations.ExpandSubstitutesEachNibble :=
  ⟨nibble_expand, by decide +kernel⟩

/-! ### Words that share no bit -/

theorem nibble_and (a b : Word) (i : Nat) : nibble (a &&& b) i = nibble a i &&& nibble b i :=
  BitVec.extractLsb'_and

/-- Two words of which one is zero at every nibble position share no bit. -/
theorem and_eq_zero_of_nibbles {a b : Word} (h : ∀ i : Fin 8, nibble a i = 0 ∨ nibble b i = 0) : a &&& b = 0 :=
  word_ext_nibbles fun i => by
    have h0 : nibble 0 i = 0 := BitVec.extractLsb'_zero
    rw [nibble_and, h0]
    obtain ha | hb := h i
    · rw [ha]; exact BitVec.zero_and
    · rw [hb]; exact BitVec.and_zero

theorem xor_eq_or_of_and_eq_zero {a b : Word} (h : a &&& b = 0) : a ^^^ b = a ||| b := by
  apply BitVec.eq_of_getLsbD_eq
  intro k _
  have hk : (a.getLsbD k && b.getLsbD k) = false := by rw [← BitVec.getLsbD_and, h]; exact BitVec.getLsbD_zero
  rw [BitVec.getLsbD_xor, BitVec.getLsbD_or]
  revert hk
  cases a.getLsbD k <;> simp

/-- A nibble at position i is worth `16^i` times its value. -/
theorem toNat_place (v : Nibble) (i : Fin 8) :
    (v.setWidth 32 <<< (4 * i.val)).toNat = v.toNat * 2 ^ (4 * i.val) := by
  have hv : v.toNat * 2 ^ (4 * i.val) < 2 ^ 32 := calc
    v.toNat * 2 ^ (4 * i.val) < 2 ^ 4 * 2 ^ (4 * i.val) := Nat.mul_lt_mul_of_pos_right v.isLt (Nat.two_pow_pos _)
    _ = 2 ^ (4 + 4 * i.val) := (Nat.pow_add ..).symm
    _ ≤ 2 ^ 32 := Nat.pow_le_pow_right (by decide) (by omega)
  rw [BitVec.toNat_shiftLeft, BitVec.toNat_setWidth, Nat.shiftLeft_eq,
    Nat.mod_eq_of_lt (show v.toNat < 2 ^ 32 by omega), Nat.mod_eq_of_lt hv]

/-- Nibbles placed at two positions share no bit. -/
theorem place_and_place_eq_zero (v w : Nibble) {i j : Fin 8} (hij : i ≠ j) :
    v.setWidth 32 <<< (4 * i.val) &&& w.setWidth 32 <<< (4 * j.val) = 0 :=
  and_eq_zero_of_nibbles fun p => by
    rw [nibble_place, nibble_place]
    by_cases hp : p = i
    · exact .inr (if_neg (hp ▸ hij))
    · exact .inl (if_neg hp)

/-! ### The byte tables -/

/-- The position of the low nibble of byte b. -/
def lowNibble (b : Fin 4) : Fin 8 := ⟨2 * b.val, by omega⟩

/-- The position of the high nibble of byte b. -/
def highNibble (b : Fin 4) : Fin 8 := ⟨2 * b.val + 1, by omega⟩

theorem four_mul_lowNibble (b : Fin 4) : 4 * (lowNibble b).val = 8 * b.val := by
  simp only [lowNibble]
  omega

theorem four_mul_highNibble (b : Fin 4) : 4 * (highNibble b).val = 8 * b.val + 4 := by
  simp only [highNibble]
  omega

theorem lowNibble_ne_highNibble (b : Fin 4) : lowNibble b ≠ highNibble b := by
  simp [lowNibble, highNibble]

/-- R84 with its shifts written as nibble positions. -/
theorem byteTable_eq_or (sb : Sbox) (b : Fin 4) (v : Byte) :
    byteTable sb b v =
      (sboxEntry sb (lowNibble b) (v.extractLsb' 0 4)).setWidth 32 <<< (4 * (lowNibble b).val) |||
        (sboxEntry sb (highNibble b) (v.extractLsb' 4 4)).setWidth 32 <<< (4 * (highNibble b).val) := by
  rw [four_mul_lowNibble, four_mul_highNibble]
  rfl

/-- Entry v of T[b] as a number: the two substituted nibbles at their weights. -/
theorem toNat_byteTable (sb : Sbox) (b : Fin 4) (v : Byte) :
    (byteTable sb b v).toNat =
      (sboxEntry sb (lowNibble b) (v.extractLsb' 0 4)).toNat * 2 ^ (8 * b.val) +
        (sboxEntry sb (highNibble b) (v.extractLsb' 4 4)).toNat * 2 ^ (8 * b.val + 4) := by
  have hand := fun v w => place_and_place_eq_zero v w (lowNibble_ne_highNibble b)
  rw [byteTable_eq_or, ← BitVec.add_eq_or_of_and_eq_zero _ _ (hand _ _),
    BitVec.toNat_add_of_and_eq_zero (hand _ _), toNat_place, toNat_place,
    four_mul_lowNibble, four_mul_highNibble]

/-- R84: entry v of T[b] holds the substituted nibbles of v at the two nibble positions of byte b, and zero elsewhere. -/
theorem nibble_byteTable (sb : Sbox) (b : Fin 4) (v : Byte) (i : Fin 8) :
    nibble (byteTable sb b v) i =
      if i.val / 2 = b.val then sboxEntry sb i (v.extractLsb' (4 * (i.val % 2)) 4) else 0 := by
  rw [byteTable_eq_or, nibble_or, nibble_place, nibble_place]
  by_cases hlo : i = lowNibble b
  · subst hlo
    simp [lowNibble, highNibble]
  · by_cases hhi : i = highNibble b
    · subst hhi
      simp [lowNibble, highNibble, Nat.mul_add_div]
    · have hb : i.val / 2 ≠ b.val := by
        simp only [lowNibble, highNibble, Fin.ext_iff] at hlo hhi
        omega
      simp [hlo, hhi, hb]

/-- Entries of the tables of two bytes share no bit. -/
theorem byteTable_and_byteTable (sb : Sbox) {b c : Fin 4} (v w : Byte) (hbc : b ≠ c) :
    byteTable sb b v &&& byteTable sb c w = 0 :=
  and_eq_zero_of_nibbles fun i => by
    rw [nibble_byteTable, nibble_byteTable]
    by_cases hb : i.val / 2 = b.val
    · exact .inr (if_neg fun hc => hbc (Fin.ext (hb.symm.trans hc)))
    · exact .inl (if_neg hb)

/-! ### The byte-wide form -/

/-- Nibble i of a word is a nibble of its byte `i / 2`. -/
theorem nibble_of_byte (t : Word) (i : Nat) :
    (t.extractLsb' (8 * (i / 2)) 8).extractLsb' (4 * (i % 2)) 4 = nibble t i := by
  apply BitVec.eq_of_getLsbD_eq
  intro k hk
  rw [getLsbD_nibble _ _ _ hk, BitVec.getLsbD_extractLsb', BitVec.getLsbD_extractLsb',
    show 8 * (i / 2) + (4 * (i % 2) + k) = 4 * i + k by omega]
  simp only [hk, show 4 * (i % 2) + k < 8 by omega, decide_true, Bool.true_and]

/-- The entry for byte b of t is `expand t` on that byte's nibble positions and zero elsewhere. -/
theorem nibble_byteTable_byte (sb : Sbox) (t : Word) (b : Fin 4) (i : Fin 8) :
    nibble (byteTable sb b (t.extractLsb' (8 * b.val) 8)) i =
      if i.val / 2 = b.val then nibble (expand sb t) i else 0 := by
  rw [nibble_byteTable]
  by_cases hb : i.val / 2 = b.val
  · rw [if_pos hb, if_pos hb, ← hb, nibble_of_byte, nibble_expand]
  · rw [if_neg hb, if_neg hb]

/-- R84: at each nibble position exactly one of the four terms, the one of that position's byte, is `expand t`. -/
theorem expandByBytes_eq_expand (sb : Sbox) (t : Word) : expandByBytes sb t = expand sb t := by
  apply word_ext_nibbles
  intro i
  have h0 : nibble (byteTable sb 0 (t.extractLsb' 0 8)) i = _ := nibble_byteTable_byte sb t 0 i
  have h1 : nibble (byteTable sb 1 (t.extractLsb' 8 8)) i = _ := nibble_byteTable_byte sb t 1 i
  have h2 : nibble (byteTable sb 2 (t.extractLsb' 16 8)) i = _ := nibble_byteTable_byte sb t 2 i
  have h3 : nibble (byteTable sb 3 (t.extractLsb' 24 8)) i = _ := nibble_byteTable_byte sb t 3 i
  rw [expandByBytes, nibble_or, nibble_or, nibble_or, h0, h1, h2, h3]
  obtain h | h | h | h : i.val / 2 = 0 ∨ i.val / 2 = 1 ∨ i.val / 2 = 2 ∨ i.val / 2 = 3 := by omega
  all_goals simp [h]

/-- Four words without common bits are joined by xor and by addition as by or. -/
theorem xor_and_add_eq_or {a b c d : Word} (hab : a &&& b = 0) (hac : a &&& c = 0) (had : a &&& d = 0)
    (hbc : b &&& c = 0) (hbd : b &&& d = 0) (hcd : c &&& d = 0) :
    a ^^^ b ^^^ c ^^^ d = a ||| b ||| c ||| d ∧ a + b + c + d = a ||| b ||| c ||| d := by
  have habc : (a ||| b) &&& c = 0 := by rw [BitVec.and_or_distrib_right, hac, hbc]; rfl
  have habcd : (a ||| b ||| c) &&& d = 0 := by
    rw [BitVec.and_or_distrib_right, BitVec.and_or_distrib_right, had, hbd, hcd]; rfl
  constructor
  · rw [xor_eq_or_of_and_eq_zero hab, xor_eq_or_of_and_eq_zero habc, xor_eq_or_of_and_eq_zero habcd]
  · rw [BitVec.add_eq_or_of_and_eq_zero _ _ hab, BitVec.add_eq_or_of_and_eq_zero _ _ habc,
      BitVec.add_eq_or_of_and_eq_zero _ _ habcd]

/-- The four entries of any four bytes are joined by xor and by addition as by or. -/
theorem byteTables_xor_and_add_eq_or (sb : Sbox) (v w x y : Byte) :
    byteTable sb 0 v ^^^ byteTable sb 1 w ^^^ byteTable sb 2 x ^^^ byteTable sb 3 y =
        byteTable sb 0 v ||| byteTable sb 1 w ||| byteTable sb 2 x ||| byteTable sb 3 y ∧
      byteTable sb 0 v + byteTable sb 1 w + byteTable sb 2 x + byteTable sb 3 y =
        byteTable sb 0 v ||| byteTable sb 1 w ||| byteTable sb 2 x ||| byteTable sb 3 y := by
  apply xor_and_add_eq_or <;> exact byteTable_and_byteTable sb _ _ (by decide)

/-- The byte `lo + 16 * hi` has the nibbles lo and hi. -/
theorem nibbles_of_byte (lo hi : Fin 16) :
    (BitVec.ofNat 8 (lo.val + 16 * hi.val)).extractLsb' 0 4 = BitVec.ofFin lo ∧
      (BitVec.ofNat 8 (lo.val + 16 * hi.val)).extractLsb' 4 4 = BitVec.ofFin hi := by
  have hv : (BitVec.ofNat 8 (lo.val + 16 * hi.val)).toNat = lo.val + 16 * hi.val :=
    Nat.mod_eq_of_lt (by omega)
  constructor
  · apply BitVec.eq_of_toNat_eq
    rw [BitVec.extractLsb'_toNat, hv, BitVec.toNat_ofFin, Nat.shiftRight_zero]
    omega
  · apply BitVec.eq_of_toNat_eq
    rw [BitVec.extractLsb'_toNat, hv, BitVec.toNat_ofFin, Nat.shiftRight_eq_div_pow]
    omega

/-- Settles O11: entries of different bytes share no bit, so the three ways to join them agree, and joined by or they
are `expand` nibble by nibble; the example is evaluated. -/
theorem byteWideExpandAgrees : Obligations.ByteWideExpandAgrees := by
  refine ⟨fun sb b lo hi => ?_, fun sb t => ?_, by decide +kernel⟩
  · obtain ⟨hlo, hhi⟩ := nibbles_of_byte lo hi
    rw [toNat_byteTable, hlo, hhi]
    rfl
  · obtain ⟨hxor, hadd⟩ := byteTables_xor_and_add_eq_or sb (t.extractLsb' 0 8) (t.extractLsb' 8 8)
      (t.extractLsb' 16 8) (t.extractLsb' 24 8)
    have hor := expandByBytes_eq_expand sb t
    exact ⟨hor, hxor.trans hor, hadd.trans hor⟩

end Sys2Proof.Machine

/-! PROOFS. The round as a function (41_round.md, R90). -/

namespace Sys2Proof.Machine

/-- R90 as one formula: steps 1 to 3 act on the left half and the key alone; step 4 joins the result to the right half. -/
theorem round_eq (sb : Sbox) (l r k : Word) :
    round sb (l, r) k = (r ^^^ rotl32 (expand sb (l + k)) 11, l) := rfl

/-- Settles O14: `add32` is `+` and `rot` is 11, so the formula is the round's own; the example runs through the
intermediate values R90 gives. -/
theorem roundFollowsItsFourSteps : Obligations.RoundFollowsItsFourSteps := by
  refine ⟨round_eq, ?_⟩
  have hsum : (0x76543210 : Word) + 0xFFEEDDCC = 0x76430FDC := by decide
  have hexpand : expand defaultSbox 0x76430FDC = 0x319AC0D0 := by decide
  have hrot : rotl32 0x319AC0D0 11 = 0xD606818C := by decide
  have hxor : (0xFEDCBA98 : Word) ^^^ 0xD606818C = 0x28DA3B14 := by decide
  rw [round_eq, hsum, hexpand, hrot, hxor]

end Sys2Proof.Machine

/-! PROOFS. The key schedule and the cycles (42_key_schedule.md, R100 and R103). -/

namespace Sys2Proof.Machine

/-! ### `ksel`, clause by clause -/

theorem ksel_enc_of_le {j : Fin 32} (h : j.val ≤ 23) : (ksel .enc j).val = j.val % 8 := by
  rw [ksel, dif_pos h]

theorem ksel_enc_of_ge {j : Fin 32} (h : 24 ≤ j.val) : (ksel .enc j).val = 31 - j.val := by
  rw [ksel, dif_neg (by omega)]

theorem ksel_dec_of_le {j : Fin 32} (h : j.val ≤ 7) : (ksel .dec j).val = j.val := by
  rw [ksel, dif_pos h]

theorem ksel_dec_of_ge {j : Fin 32} (h : 8 ≤ j.val) : (ksel .dec j).val = 7 - j.val % 8 := by
  rw [ksel, dif_neg (by omega)]

/-- The key word order of the 32 rounds is the orders of the four cycles, one after the other. -/
theorem map_ksel_eq_flatMap_cycles (d : Dir) :
    (List.finRange 32).map (ksel d) = (cycles d).flatMap Vector.toList := by
  cases d with
  | enc => decide
  | dec => decide

/-- The round key of round j is the key word `ksel d j`. -/
theorem getElem?_roundKeys (d : Dir) (key : Key) (j : Fin 32) :
    (roundKeys d key)[j.val]? = some key[ksel d j] := by
  simp [roundKeys]

/-- Settles O16: each clause is a branch of `ksel`, the two orders are those of the cycles, and `roundKeys` looks the
key words up with no change. -/
theorem keyScheduleSelects : Obligations.KeyScheduleSelects :=
  ⟨fun _ => ⟨ksel_enc_of_le, ksel_enc_of_ge, ksel_dec_of_le, ksel_dec_of_ge⟩,
    map_ksel_eq_flatMap_cycles .enc, map_ksel_eq_flatMap_cycles .dec, getElem?_roundKeys⟩

/-! ### Cycles as runs of rounds -/

/-- The key words of a cycle, in its order. -/
def cycleKeys (key : Key) (order : Vector (Fin 8) 8) : List Word := order.toList.map fun i => key[i]

theorem runRounds_cycleKeys (sb : Sbox) (key : Key) (order : Vector (Fin 8) 8) (p : Halves) :
    runRounds sb (cycleKeys key order) p = cycle sb key order p := rfl

/-- An order read at the positions 0 to 7 is its list. -/
theorem map_getElem_finRange_eq_toList (order : Vector (Fin 8) 8) :
    (List.finRange 8).map (fun i => order[i]) = order.toList :=
  List.ext_getElem (by simp) (by simp)

/-- R103: a cycle is eight rounds, the i-th with the key word that the order gives for i. -/
theorem cycle_eq_foldl_finRange (sb : Sbox) (key : Key) (order : Vector (Fin 8) 8) (p : Halves) :
    cycle sb key order p = (List.finRange 8).foldl (fun q i => round sb q key[order[i]]) p := by
  rw [cycle, runRounds, ← map_getElem_finRange_eq_toList, List.map_map, List.foldl_map]
  rfl

/-- The 32 round keys are the key words of the four cycles, one cycle after the other. -/
theorem roundKeys_eq_flatMap_cycles (d : Dir) (key : Key) :
    roundKeys d key = (cycles d).flatMap (cycleKeys key) := calc
  roundKeys d key = ((List.finRange 32).map (ksel d)).map fun i => key[i] := List.map_map.symm
  _ = ((cycles d).flatMap Vector.toList).map fun i => key[i] := by rw [map_ksel_eq_flatMap_cycles]
  _ = (cycles d).flatMap (cycleKeys key) := List.map_flatMap

/-- Rounds with the keys of several cycles are those cycles, one after the other. -/
theorem runRounds_flatMap_cycleKeys (sb : Sbox) (key : Key) (orders : List (Vector (Fin 8) 8)) (p : Halves) :
    runRounds sb (orders.flatMap (cycleKeys key)) p = orders.foldl (fun q o => cycle sb key o q) p := by
  induction orders generalizing p with
  | nil => rfl
  | cons o os ih => rw [List.flatMap_cons, runRounds_append, runRounds_cycleKeys, ih, List.foldl_cons]

/-- Settles O18: the 32 round keys are the concatenated keys of the four cycles, and rounds run over a concatenation one
part after the other; the two orders and the two lists of cycles are the definitions' own. -/
theorem cyclesMakeTheRounds : Obligations.CyclesMakeTheRounds := by
  refine ⟨cycle_eq_foldl_finRange, by decide, rfl, rfl, fun sb key d p => ?_⟩
  rw [roundKeys_eq_flatMap_cycles, runRounds_flatMap_cycleKeys]

end Sys2Proof.Machine

/-! PROOFS. The block functions (43_block.md, R110). -/

namespace Sys2Proof.Machine

/-- The split, in numbers: l is the low half of the block, r the high half. -/
theorem toNat_splitBlock (b : Block) :
    (splitBlock b).1.toNat = b.toNat % 2 ^ 32 ∧ (splitBlock b).2.toNat = b.toNat / 2 ^ 32 :=
  ⟨toNat_lo32 b, toNat_hi32 b⟩

/-- The reassembly, in numbers: l, which entered as the low half, leaves in the high half. -/
theorem toNat_joinHalves (p : Halves) : (joinHalves p).toNat = p.2.toNat + p.1.toNat * 2 ^ 32 :=
  toNat_cat64 p.1 p.2

/-- Settles O20: the halves are those of `splitBlock`, before and after the 32 rounds, and `block` reassembles the
latter. -/
theorem blockSplitsAndReassembles : Obligations.BlockSplitsAndReassembles := by
  intro sb key d b
  obtain ⟨hlow, hhigh⟩ := toNat_splitBlock b
  have hjoin := toNat_joinHalves (runRounds sb (roundKeys d key) (splitBlock b))
  exact ⟨_, _, _, _, hlow, hhigh, rfl, hjoin⟩

end Sys2Proof.Machine

/-! PROOFS. Errors are precise (60_exceptions.md, R152): a command reports an error exactly when it turns its lengths away,
and it turns them away before it reads anything else. -/

namespace Sys2Proof.Machine

/-- The error a command finds in the values of SRC_LEN and DST_LEN (R153, R154); only the buffer commands look for one. -/
def lengthError (n m : Nat) : Instr → Option LengthError
  | .round | .encblk | .decblk => none
  | .encecb | .dececb => validateEcb n m
  | .encgam | .decgam => validateGamma n m

/-- A command whose lengths are wrong raises the error, whatever every other register and byte holds. -/
theorem exec_of_lengthError {i : Instr} {s : State} {n m : Nat} {e : LengthError} (hl : s.Lengths n m)
    (he : lengthError n m i = some e) : exec i s = .next (raiseError e s) := by
  have ecb {d} (hv : validateEcb n m = some e) : ecbCommand d s = .next (raiseError e s) :=
    ecbCommand_eq_next.mpr ⟨n, m, hl, .inl ⟨e, hv, rfl⟩⟩
  have gam (hv : validateGamma n m = some e) : gammaCommand s = .next (raiseError e s) := by
    obtain ⟨hne, rfl⟩ := validateGamma_eq_some.mp hv
    exact gammaCommand_eq_next.mpr ⟨n, m, hl, .inl ⟨hne, rfl⟩⟩
  cases i with
  | round | encblk | decblk => cases he
  | encecb | dececb => exact ecb he
  | encgam | decgam => exact gam he

/-- A command that leaves STATUS not 0 found its lengths wrong and raised that error: every other way to complete ends
with the code of success. -/
theorem lengthError_of_status_ne_zero {i : Instr} {s t : State} (h : exec i s = .next t) (ht : t.status ≠ 0) :
    ∃ n m e, s.Lengths n m ∧ lengthError n m i = some e ∧ t = raiseError e s := by
  have ecb {d} (h : ecbCommand d s = .next t) :
      ∃ n m e, s.Lengths n m ∧ validateEcb n m = some e ∧ t = raiseError e s := by
    obtain ⟨n, m, hl, ⟨e, hv, rfl⟩ | ⟨-, -, rfl⟩ | ⟨-, -, -, _, _, -, -, rfl⟩⟩ := ecbCommand_eq_next.mp h
    · exact ⟨n, m, e, hl, hv, rfl⟩
    · exact absurd (bufferDone_status _ _) ht
    · exact absurd (bufferDone_status _ _) ht
  have gam (h : gammaCommand s = .next t) :
      ∃ n m e, s.Lengths n m ∧ validateGamma n m = some e ∧ t = raiseError e s := by
    obtain ⟨n, m, hl, ⟨hne, rfl⟩ | ⟨-, -, rfl⟩ | ⟨-, -, _, _, _, _, -, -, -, -, rfl⟩⟩ := gammaCommand_eq_next.mp h
    · exact ⟨n, m, _, hl, validateGamma_eq_some.mpr ⟨hne, rfl⟩, rfl⟩
    · exact absurd (bufferDone_status _ _) ht
    · exact absurd (bufferDone_status _ _) ht
  cases i with
  | round =>
    obtain ⟨_, _, _, -, -, -, rfl⟩ := execRound_eq_next.mp h
    exact absurd (roundDone_status _ _) ht
  | encblk | decblk =>
    obtain ⟨_, _, -, -, rfl⟩ := blockCommand_eq_next.mp h
    exact absurd (blockDone_status _ _) ht
  | encecb | dececb => exact ecb h
  | encgam | decgam => exact gam h

/-- Bits 31:2 of STATUS are 0 whatever it reports (R25, R151). -/
theorem statusWord_upper_bits (o : Option LengthError) : (statusWord o).extractLsb' 2 30 = 0 := by
  obtain _ | _ | _ := o <;> decide

/-- Settles O40: the error comes from the lengths alone. A state with another SRC, K and IV has the same lengths, so the
command raises the same error there, and `raiseError` changes nothing but STATUS. -/
theorem errorsArePrecise : Obligations.ErrorsArePrecise := by
  intro i s t h ht
  obtain ⟨n, m, e, hl, he, rfl⟩ := lengthError_of_status_ne_zero h ht
  refine ⟨⟨e, rfl⟩, statusWord_upper_bits (some e), fun src key iv => ?_⟩
  have hl' : State.Lengths { s with src := src, key := key, iv := iv } n m := hl
  exact exec_of_lengthError hl' he

end Sys2Proof.Machine

/-! PROOFS. Command words and host lines (30_encoding.md, R60 to R65). -/

namespace Sys2Proof

/-! ### The decoder by its two fields -/

/-- A command word is its two fields of R60. -/
theorem word_eq_append_fields (w : Word) : w = zeroField w ++ opField w := by
  rw [zeroField, opField, BitVec.extractLsb'_append_extractLsb'_eq_extractLsb' (by rfl)]
  exact BitVec.extractLsb'_eq_self.symm

theorem zeroField_encode (i : Instr) : zeroField (encode i) = 0 := by
  cases i <;> decide

theorem opField_encode (i : Instr) : opField (encode i) = i.op := by
  cases i <;> decide

/-- A word is a command's exactly when bits 31:3 are zero and bits 2:0 are its op. -/
theorem eq_encode_iff {w : Word} {i : Instr} : w = encode i ↔ zeroField w = 0 ∧ opField w = i.op := by
  constructor
  · rintro rfl
    exact ⟨zeroField_encode i, opField_encode i⟩
  · rintro ⟨hzero, hop⟩
    rw [word_eq_append_fields w, hzero, hop, encode]

/-- Every op but 0 is some command's (R61). -/
theorem exists_op_eq (v : BitVec 3) (h : v ≠ 0) : ∃ i : Instr, v = i.op := by
  have table : ∀ v : BitVec 3, v ≠ 0 → ∃ i ∈ opcodeTable.map OpcodeRow.instr, v = i.op := by decide
  obtain ⟨i, -, hi⟩ := table v h
  exact ⟨i, hi⟩

@[simp] theorem decode_encode (i : Instr) : decode (encode i) = .ok i := by
  cases i <;> decide

/-- R64: a word whose op is 0 or with one of its upper bits set is reserved. -/
theorem exists_decode_eq_error {w : Word} (h : opField w = 0 ∨ zeroField w ≠ 0) : ∃ e, decode w = .error e := by
  by_cases hzero : zeroField w = 0
  · have hop : opField w = 0 := h.resolve_right (not_not.mpr hzero)
    exact ⟨.opZero, by simp [decode, hzero, hop]⟩
  · exact ⟨.highBitsSet w, if_pos hzero⟩

/-- Every word is reserved or a command's. -/
theorem reserved_or_eq_encode (w : Word) : (opField w = 0 ∨ zeroField w ≠ 0) ∨ ∃ i, w = encode i := by
  by_cases hres : opField w = 0 ∨ zeroField w ≠ 0
  · exact .inl hres
  · obtain ⟨hop, hzero⟩ := not_or.mp hres
    obtain ⟨i, hi⟩ := exists_op_eq _ hop
    exact .inr ⟨i, eq_encode_iff.mpr ⟨not_not.mp hzero, hi⟩⟩

/-- R61: the decoder answers a command exactly for its word. -/
theorem decode_eq_ok_iff {w : Word} {i : Instr} : decode w = .ok i ↔ w = encode i := by
  constructor
  · intro h
    obtain hres | ⟨j, rfl⟩ := reserved_or_eq_encode w
    · obtain ⟨e, he⟩ := exists_decode_eq_error hres
      cases he.symm.trans h
    · cases (decode_encode j).symm.trans h
      rfl
  · rintro rfl
    exact decode_encode i

/-- R64: no other word is reserved. -/
theorem exists_decode_eq_error_iff {w : Word} :
    (∃ e, decode w = .error e) ↔ opField w = 0 ∨ zeroField w ≠ 0 := by
  refine ⟨fun ⟨e, he⟩ => ?_, exists_decode_eq_error⟩
  obtain hres | ⟨i, rfl⟩ := reserved_or_eq_encode w
  · exact hres
  · cases he.symm.trans (decode_encode i)

/-! ### The opcode table -/

/-- Every row of the table compares the whole word with its command's word. -/
theorem row_eq_of_mem_opcodeTable {row : OpcodeRow} (h : row ∈ opcodeTable) :
    row = ⟨row.instr, encode row.instr, BitVec.allOnes 32⟩ := by
  revert row
  decide

theorem row_mem_opcodeTable (i : Instr) : ⟨i, encode i, BitVec.allOnes 32⟩ ∈ opcodeTable := by
  cases i <;> decide

/-- The row test of R61, mask and match, finds a command exactly for its own word. -/
theorem matches_row_iff {w : Word} {i : Instr} :
    (∃ row ∈ opcodeTable, row.instr = i ∧ w &&& row.mask = row.pattern) ↔ w = encode i := by
  constructor
  · rintro ⟨row, hrow, rfl, hmatch⟩
    rw [row_eq_of_mem_opcodeTable hrow] at hmatch
    exact BitVec.and_allOnes.symm.trans hmatch
  · rintro rfl
    exact ⟨_, row_mem_opcodeTable i, rfl, BitVec.and_allOnes⟩

/-- Settles O2: both directions and the row test come down to equality with the command's word. -/
theorem decodeAcceptsExactlyTheTable : Obligations.DecodeAcceptsExactlyTheTable :=
  ⟨fun i _ => decode_encode i, fun _ _ => decode_eq_ok_iff, fun _ _ => decode_eq_ok_iff.trans matches_row_iff.symm,
    fun _ => exists_decode_eq_error_iff⟩

/-- Settles O1: the ten words are evaluated. -/
theorem decodeReadsTheSevenWords : Obligations.DecodeReadsTheSevenWords := by
  unfold Obligations.DecodeReadsTheSevenWords
  decide

/-! ### Host lines -/

/-- The encoding of a program is that of its lines, one after the other (R65). -/
theorem encodeProgram_append (p q : List HostLine) :
    encodeProgram (p ++ q) = encodeProgram p ++ encodeProgram q := by
  simp [encodeProgram, expandProgram]

/-- Settles O4: each line's expansion is the definition's own, and expansion and encoding go line by line. -/
theorem hostNotationEncodes : Obligations.HostNotationEncodes :=
  ⟨fun _ _ => rfl, fun _ => rfl, fun _ => rfl, fun _ _ => ⟨rfl, rfl⟩, fun _ _ _ _ => ⟨rfl, rfl, rfl⟩,
    encodeProgram_append⟩

end Sys2Proof

/-! PROOFS. The arithmetic of words (00_scope.md, R8 and R9) and the gamma counter (45_gamma.md, R132, R133, R140). -/

namespace Sys2Proof.Machine

/-- Settles O8: both additions are the machine's own addition of words; the examples are evaluated. -/
theorem additionWraps : Obligations.AdditionWraps :=
  ⟨BitVec.toNat_add, BitVec.toNat_add, by decide⟩

/-- R9: the bit at position j moves to position j + n, counted round the word. -/
theorem getLsbD_rotl32 (x : Word) {n j : Nat} (hn : 0 < n) (hn' : n < 32) (hj : j < 32) :
    (rotl32 x n).getLsbD ((j + n) % 32) = x.getLsbD j := by
  rw [rotl32, BitVec.getLsbD_or, BitVec.getLsbD_shiftLeft, BitVec.getLsbD_ushiftRight]
  by_cases hwrap : j + n < 32
  · have hhigh : x.getLsbD (32 - n + (j + n)) = false := BitVec.getLsbD_of_ge x _ (by omega)
    simp [Nat.mod_eq_of_lt hwrap, hwrap, hhigh]
  · have hmod : (j + n) % 32 = j + n - 32 := by omega
    have hlow : j + n - 32 < n := by omega
    have hback : 32 - n + (j + n - 32) = j := by omega
    simp [hmod, hlow, hback]

/-- Settles O9: a bit that stays inside the word comes from the left shift, one that leaves it from the right shift. -/
theorem rotationMovesEveryBit : Obligations.RotationMovesEveryBit :=
  ⟨fun x _ _ hn hn' hj => getLsbD_rotl32 x hn hn' hj, by decide⟩

theorem toNat_cat64_zero (h : Word) : (cat64 h 0).toNat = h.toNat * 2 ^ 32 := by
  simp [toNat_cat64]

/-- R140: below 2^32 chunks the counter counts in its low half alone. -/
theorem cat64_zero_add_ofNat (iv c : Word) : cat64 iv 0 + BitVec.ofNat 64 c.toNat = cat64 iv c := by
  apply BitVec.eq_of_toNat_eq
  have hiv := iv.isLt
  have hc := c.isLt
  rw [BitVec.toNat_add, BitVec.toNat_ofNat, toNat_cat64_zero, toNat_cat64]
  omega

/-- R140: chunk 2^32 uses the first counter of the next IV. -/
theorem cat64_zero_add_two_pow (iv : Word) : cat64 iv 0 + BitVec.ofNat 64 (2 ^ 32) = cat64 (iv + 1) 0 := by
  apply BitVec.eq_of_toNat_eq
  have hiv := iv.isLt
  have hnext : (iv + 1).toNat = (iv.toNat + 1) % 2 ^ 32 := BitVec.toNat_add iv 1
  rw [BitVec.toNat_add, BitVec.toNat_ofNat, toNat_cat64_zero, toNat_cat64_zero, hnext]
  omega

/-- Settles O36. -/
theorem counterRunsIntoTheNextIv : Obligations.CounterRunsIntoTheNextIv :=
  ⟨cat64_zero_add_ofNat, cat64_zero_add_two_pow⟩

/-- Settles O35: the counter after a run is a clause of the loop's own specification; the examples are evaluated. -/
theorem counterStartsAndIncrements : Obligations.CounterStartsAndIncrements := by
  refine ⟨toNat_cat64_zero, by decide, by decide, fun ctr => BitVec.toNat_add ctr 1, by decide, by decide, ?_⟩
  intro ks src dst k c ctr p h
  obtain ⟨hctr, -, -⟩ := gammaChunks_spec h
  exact hctr

end Sys2Proof.Machine

/-! PROOFS. The inverse of the substitution (40_substitution.md, R83) and the default table (R81). -/

namespace Sys2Proof.Machine

section
variable {sb : Sbox} (hperm : sb.RowsArePermutations)
include hperm

theorem sboxEntry_injective (i : Fin 8) : Function.Injective (sboxEntry sb i) := fun v w h =>
  BitVec.toFin_inj.mp (hperm i v.toFin w.toFin h)

/-- An injective row of 16 entries out of 16 nibbles holds every nibble. -/
theorem sboxEntry_surjective (i : Fin 8) : Function.Surjective (sboxEntry sb i) := by
  have : Finite Nibble := Finite.of_injective BitVec.toFin fun _ _ => BitVec.toFin_inj.mp
  exact Finite.surjective_of_injective (sboxEntry_injective hperm i)

/-- The inverse row finds a position at which the row holds v. -/
theorem sboxEntry_inverseEntry (i : Fin 8) (v : Nibble) : sboxEntry sb i (inverseEntry sb i v) = v := by
  obtain ⟨w, hw⟩ := sboxEntry_surjective hperm i v
  unfold inverseEntry
  split
  · rename_i w' hfind
    have hentry := List.find?_some hfind
    exact eq_of_beq hentry
  · rename_i hfind
    exact absurd hw fun hw => List.find?_eq_none.mp hfind w.toFin (List.mem_finRange _) (beq_iff_eq.mpr hw)

theorem inverseEntry_sboxEntry (i : Fin 8) (v : Nibble) : inverseEntry sb i (sboxEntry sb i v) = v :=
  sboxEntry_injective hperm i (sboxEntry_inverseEntry hperm i _)

theorem expandInverse_expand (t : Word) : expandInverse sb (expand sb t) = t :=
  word_ext_nibbles fun i => by
    rw [expandInverse, nibble_mapNibbles, nibble_expand, inverseEntry_sboxEntry hperm]

theorem expand_expandInverse (t : Word) : expand sb (expandInverse sb t) = t :=
  word_ext_nibbles fun i => by
    rw [nibble_expand, expandInverse, nibble_mapNibbles, sboxEntry_inverseEntry hperm]

end

/-- Settles O12: `expandInverse` is a two-sided inverse, nibble by nibble. -/
theorem expandIsABijection : Obligations.ExpandIsABijection := fun sb hperm =>
  ⟨Function.bijective_iff_has_inverse.mpr ⟨expandInverse sb, expandInverse_expand hperm, expand_expandInverse hperm⟩,
    expandInverse_expand hperm, expand_expandInverse hperm⟩

/-- Settles O13: a finite table and three fixed vectors, evaluated in the kernel. -/
theorem defaultTableMeetsItsVectors : Obligations.DefaultTableMeetsItsVectors := by
  unfold Obligations.DefaultTableMeetsItsVectors
  decide +kernel

end Sys2Proof.Machine

/-! PROOFS. Rounds and blocks undone (41_round.md R91, 42_key_schedule.md R101 and R104, 43_block.md R113 and R114). -/

namespace Sys2Proof.Machine

/-! ### One round and two -/

/-- R91: the pair that a round takes to a given one. -/
def roundInverse (sb : Sbox) (k : Word) (p : Halves) : Halves := (p.2, p.1 ^^^ g sb p.2 k)

@[simp] theorem round_roundInverse (sb : Sbox) (k : Word) (p : Halves) : round sb (roundInverse sb k p) k = p := by
  simp [round, roundInverse]

@[simp] theorem roundInverse_round (sb : Sbox) (k : Word) (p : Halves) : roundInverse sb k (round sb p k) = p := by
  simp [round, roundInverse]

/-- R104: two rounds are one pair of rounds that exchanges no names. -/
theorem round_round_eq_roundPair (sb : Sbox) (k₁ k₂ : Word) (p : Halves) :
    round sb (round sb p k₁) k₂ = roundPair sb k₁ k₂ p := rfl

/-- Settles O15: `roundInverse` is a two-sided inverse, and two rounds are a pair of rounds. -/
theorem roundIsABijection : Obligations.RoundIsABijection := fun sb k =>
  ⟨Function.bijective_iff_has_inverse.mpr ⟨roundInverse sb k, roundInverse_round sb k, round_roundInverse sb k⟩,
    fun l' r' => round_roundInverse sb k (l', r'), fun l r k₂ => round_round_eq_roundPair sb k k₂ (l, r)⟩

/-- Settles O19: the eight rounds of a cycle are four pairs of rounds. -/
theorem pairedCycleAgrees : Obligations.PairedCycleAgrees := by
  intro sb key o p
  rw [cycle_eq_foldl_finRange]
  simp only [cyclePaired, ← round_round_eq_roundPair]
  rfl

/-! ### The order of the keys -/

theorem ksel_dec_eq_ksel_enc (j : Fin 32) : ksel .dec j = ksel .enc ⟨31 - j.val, by omega⟩ := by
  revert j
  decide

/-- R101: the decryption keys are the encryption keys from the last to the first. -/
theorem roundKeys_dec (key : Key) : roundKeys .dec key = (roundKeys .enc key).reverse := by
  have horder : (List.finRange 32).map (ksel .dec) = ((List.finRange 32).map (ksel .enc)).reverse := by decide
  have hkeys (d : Dir) : roundKeys d key = ((List.finRange 32).map (ksel d)).map fun i => key[i] := List.map_map.symm
  rw [hkeys, hkeys, horder, List.map_reverse]

theorem roundKeys_enc (key : Key) : roundKeys .enc key = (roundKeys .dec key).reverse := by
  rw [roundKeys_dec, List.reverse_reverse]

/-- Settles O17: the two orders are finite tables; the keys follow the order. -/
theorem decryptionOrderIsReversed : Obligations.DecryptionOrderIsReversed := by
  refine ⟨ksel_dec_eq_ksel_enc, roundKeys_dec, fun d i => ?_⟩
  cases d with
  | enc => revert i; decide
  | dec => revert i; decide

/-! ### Blocks -/

/-- Rounds on a block and then the same keys in the other order give the block back (R113). -/
theorem joinHalves_runRounds_reverse (sb : Sbox) (ks : List Word) (b : Block) :
    joinHalves (runRounds sb ks.reverse (splitBlock (joinHalves (runRounds sb ks (splitBlock b))))) = b := by
  rw [splitBlock_joinHalves, runRounds_reverse, joinHalves_swap_splitBlock]

@[simp] theorem block_dec_block_enc (sb : Sbox) (key : Key) (b : Block) :
    block sb key .dec (block sb key .enc b) = b := by
  rw [block, block, roundKeys_dec, joinHalves_runRounds_reverse]

@[simp] theorem block_enc_block_dec (sb : Sbox) (key : Key) (b : Block) :
    block sb key .enc (block sb key .dec b) = b := by
  rw [block, block, roundKeys_enc, joinHalves_runRounds_reverse]

/-- Settles O21. -/
theorem blockDirectionsInvertEachOther : Obligations.BlockDirectionsInvertEachOther := fun sb key b =>
  ⟨block_dec_block_enc sb key b, block_enc_block_dec sb key b⟩

/-- In every round the two directions use the same key word or mirrored ones. -/
theorem ksel_dec_eq_or_mirrored (j : Fin 32) :
    ksel .dec j = ksel .enc j ∨ (ksel .dec j).val = 7 - (ksel .enc j).val := by
  revert j
  decide

theorem roundKeys_enc_eq_dec_of_palindromic {key : Key} (hpal : ∀ i : Fin 8, key[i] = key[7 - i.val]) :
    roundKeys .enc key = roundKeys .dec key := by
  refine List.map_congr_left fun j _ => ?_
  obtain h | h := ksel_dec_eq_or_mirrored j
  · simp only [h]
  · rw [hpal (ksel .enc j)]
    simp only [← h, Fin.getElem_fin]

/-- Settles O22: with mirrored keys the two lists of round keys are equal. -/
theorem palindromicKeysMakeDirectionsCoincide : Obligations.PalindromicKeysMakeDirectionsCoincide := by
  intro sb key hpal b
  rw [encryptBlock, decryptBlock, block, block, roundKeys_enc_eq_dec_of_palindromic hpal]

end Sys2Proof.Machine

/-! PROOFS. Little-endian accesses (20_memory.md, R43 and R44). -/

namespace Sys2Proof.Machine

/-- A byte in front of at most seven others is the low digit of a number in base 256. -/
theorem toNat_leValue_cons (b : Byte) (bs : List Byte) (hbs : (leValue bs).toNat < 2 ^ 56) :
    (leValue (b :: bs)).toNat = b.toNat + 2 ^ 8 * (leValue bs).toNat := by
  have hb := b.isLt
  rw [leValue, BitVec.toNat_or, BitVec.toNat_setWidth, BitVec.toNat_shiftLeft, Nat.shiftLeft_eq,
    Nat.mod_eq_of_lt (show b.toNat < 2 ^ 64 by omega), Nat.mod_eq_of_lt (by omega), Nat.or_comm,
    Nat.mul_comm, ← Nat.two_pow_add_eq_or_of_lt hb, Nat.add_comm]

theorem toNat_leValue_lt {bs : List Byte} (h : bs.length ≤ 8) : (leValue bs).toNat < 2 ^ (8 * bs.length) := by
  induction bs with
  | nil => decide
  | cons b bs ih =>
    have hlen : bs.length + 1 ≤ 8 := h
    have hrest := ih (by omega)
    have hpow : 2 ^ (8 * bs.length) ≤ 2 ^ 56 := Nat.pow_le_pow_right (by decide) (by omega)
    have hb := b.isLt
    rw [toNat_leValue_cons b bs (by omega), List.length_cons, Nat.mul_add, Nat.pow_add]
    omega

/-- R43: the value of at most eight bytes is their little-endian sum. -/
theorem toNat_leValue {bs : List Byte} (h : bs.length ≤ 8) :
    (leValue bs).toNat = ∑ k ∈ Finset.range bs.length, 2 ^ (8 * k) * (bs.getD k 0).toNat := by
  induction bs with
  | nil => rfl
  | cons b bs ih =>
    have hlen : bs.length + 1 ≤ 8 := h
    have hlt := toNat_leValue_lt (show bs.length ≤ 8 by omega)
    have hpow : 2 ^ (8 * bs.length) ≤ 2 ^ 56 := Nat.pow_le_pow_right (by decide) (by omega)
    have hterm (k : Nat) : 2 ^ (8 * (k + 1)) * ((b :: bs).getD (k + 1) 0).toNat =
        2 ^ 8 * (2 ^ (8 * k) * (bs.getD k 0).toNat) := by
      rw [List.getD_cons_succ, Nat.mul_add, Nat.pow_add, Nat.mul_comm (2 ^ (8 * k)), Nat.mul_assoc]
    rw [toNat_leValue_cons b bs (by omega), ih (by omega), List.length_cons, Finset.sum_range_succ', Finset.mul_sum,
      Nat.add_comm]
    simp only [hterm, List.getD_cons_zero, Nat.mul_zero, Nat.pow_zero, Nat.one_mul]

/-- Bytes that are all known are read in order. -/
theorem readBytes_eq_map_range {sp : Space} {m : Memory} {off n : Nat} {b : Nat → Byte}
    (hb : ∀ k, k < n → Memory.get m (off + k) = .val (b k)) :
    readBytes sp m off n = .next ((List.range n).map b) :=
  readBytes_eq_next.mpr ⟨by simp, fun k hk => by
    rw [List.getElem_map, List.getElem_range]
    exact hb k (by simpa using hk)⟩

/-- `MemRead` of written bytes answers the little-endian sum of what they hold. -/
theorem memRead_eq_sum {m : Memory} {off n : Nat} {b : Nat → Byte} (hn : n ≤ 8)
    (hb : ∀ k, k < n → Memory.get m (off + k) = .val (b k)) :
    ∃ v, memRead m off n = .next v ∧ v.toNat = ∑ k ∈ Finset.range n, 2 ^ (8 * k) * (b k).toNat := by
  refine ⟨_, memRead_eq_next.mpr ⟨_, readBytes_eq_map_range hb, rfl⟩, ?_⟩
  rw [toNat_leValue (by simpa using hn), List.length_map, List.length_range]
  refine Finset.sum_congr rfl fun k hk => ?_
  have hk : k < n := Finset.mem_range.mp hk
  simp [hk]

/-- Settles O49: `MemRead` reads the bytes in order, and their value is the sum; the example is evaluated. -/
theorem memReadIsLittleEndian : Obligations.MemReadIsLittleEndian := by
  refine ⟨fun m off n b _ hn hb => memRead_eq_sum hn hb, fun m h => ?_, by decide, by decide⟩
  exact memRead_eq_next.mpr ⟨_, h, by decide⟩

theorem byteOf_eq_ofNat (v : Block) (k : Nat) : byteOf v k = BitVec.ofNat 8 (v.toNat / 2 ^ (8 * k)) := by
  apply BitVec.eq_of_toNat_eq
  rw [byteOf, BitVec.extractLsb'_toNat, BitVec.toNat_ofNat, Nat.shiftRight_eq_div_pow]

/-- What `MemWrite` wrote is read back as the bytes of the value. -/
theorem readBytes_memWrite (sp : Space) (m : Memory) (off n : Nat) (v : Block) :
    readBytes sp (memWrite m off n v) off n = .next (leBytes v n) :=
  readBytes_eq_next.mpr ⟨leBytes_length v n, fun k hk => by
    have hk' : k < n := by simpa using hk
    rw [get_memWrite, if_pos (by omega), getElem_leBytes, Nat.add_sub_cancel_left]⟩

/-- Settles O50: a byte after `MemWrite` is known inside its range and outside it; the example is read back. -/
theorem memWriteIsLittleEndian : Obligations.MemWriteIsLittleEndian := by
  refine ⟨fun m off n v _ _ => ⟨fun k hk => ?_, fun a ha => ?_⟩, fun m => ?_⟩
  · rw [get_memWrite, if_pos (by omega), Nat.add_sub_cancel_left, byteOf_eq_ofNat]
  · rw [get_memWrite, if_neg (by omega)]
  · exact (readBytes_memWrite ..).trans (congrArg Host.Outcome.next (by decide))

end Sys2Proof.Machine

/-! PROOFS. The step, and the host's side of it (10_state.md R15 and R24, 20_memory.md R40 and R41, 30_encoding.md
R64). -/

namespace Sys2Proof.Machine

/-! ### One action a step -/

/-- Settles O7. -/
theorem idleStepKeepsAllState : Obligations.IdleStepKeepsAllState := by
  intro s hp
  rw [step, hp]

/-- A step is the first action of the host's list, on the state with the rest of the list. -/
theorem step_of_pending {s : State} {a : HostAction} {rest : List HostAction} (hp : s.pending = a :: rest) :
    step s = hostStep a (withPending rest s) := by
  rw [step, hp]

/-- R24: a host write of a word to CMD runs that word. -/
theorem hostWrite_cmd (w : Word) (s : State) : hostWrite 0 w.toNat s = runCommandWord w s := by
  have hfits : ¬2 ^ Reg.cmd.width s.cfg.lenw ≤ w.toNat := Nat.not_le.mpr w.isLt
  have hreg : Reg.ofNumber 0 = some .cmd := rfl
  simp [hostWrite, hreg, hfits, Reg.hostMayWrite]

theorem step_of_cmd_write {s : State} {w : Word} {rest : List HostAction} (hp : s.pending = .wr 0 w.toNat :: rest) :
    step s = runCommandWord w (withPending rest s) :=
  (step_of_pending hp).trans (hostWrite_cmd w _)

theorem runCommandWord_of_decode {w : Word} {i : Instr} (hd : decode w = .ok i) (s : State) :
    runCommandWord w s = exec i s := by
  rw [runCommandWord, hd]

/-- Settles O5. -/
theorem stepRunsTheDecodedCommand : Obligations.StepRunsTheDecodedCommand := fun _ _ _ _ hp hd =>
  (step_of_cmd_write hp).trans (runCommandWord_of_decode hd _)

/-- Settles O3: such a word decodes to no command, and a word that decodes to none is refused by its reason. -/
theorem reservedWordsAreRefused : Obligations.ReservedWordsAreRefused := by
  intro s w rest hp hres
  obtain ⟨e, he⟩ := exists_decode_eq_error hres
  exact ⟨e, by rw [step_of_cmd_write hp, runCommandWord, he]⟩

/-! ### Registers -/

theorem ofNumber_eq_some_iff {n : Nat} {reg : Reg} : Reg.ofNumber n = some reg ↔ n = reg.number :=
  ⟨ofNumber_eq_some, fun h => h ▸ ofNumber_number reg⟩

theorem held_toNat_ofNat {w v : Nat} (h : v < 2 ^ w) : (Held.val (BitVec.ofNat w v)).toNat = .val v := by
  rw [Held.toNat, BitVec.toNat_ofNat, Nat.mod_eq_of_lt h]

/-- R15: a register that is written holds the value. -/
theorem getReg_putReg_same {reg : Reg} {lenw v : Nat} (hmay : reg.hostMayWrite = true) (hcmd : reg ≠ .cmd)
    (hv : v < 2 ^ reg.width lenw) (s : State) : getReg reg (putReg reg v s) = .val v := by
  cases reg with
  | cmd => exact absurd rfl hcmd
  | status | bout => cases hmay
  | srcLen | dstLen => rfl
  | iv | rkey | l | r | bin => exact held_toNat_ofNat hv
  | key i =>
    rw [getReg, putReg, Fin.getElem_fin, Vector.getElem_set_self]
    exact held_toNat_ofNat hv

/-- R15: no other register changes. -/
theorem getReg_putReg_other {q reg : Reg} (h : q ≠ reg) (v : Nat) (s : State) :
    getReg q (putReg reg v s) = getReg q s := by
  cases reg with
  | key i =>
    cases q with
    | key j =>
      have hij : i.val ≠ j.val := fun hij => h (congrArg Reg.key (Fin.ext hij.symm))
      simp only [getReg, putReg, Fin.getElem_fin, Vector.getElem_set_ne _ _ hij]
    | _ => rfl
  | cmd | status | bout => rfl
  | srcLen | dstLen | iv | rkey | l | r | bin => cases q <;> simp_all [getReg, putReg]

@[simp] theorem getReg_withReply (reg : Reg) (a : Reply) (s : State) : getReg reg (withReply a s) = getReg reg s := by
  cases reg <;> rfl

@[simp] theorem getReg_putSrc (reg : Reg) (off : Nat) (bs : List Byte) (s : State) :
    getReg reg (putSrc off bs s) = getReg reg s := by
  cases reg <;> rfl

/-- R15: a value of the register's width, written to a register the host may write, is stored. -/
theorem hostWrite_number {reg : Reg} {v : Nat} {s : State} (hmay : reg.hostMayWrite = true) (hcmd : reg ≠ .cmd)
    (hv : v < 2 ^ reg.width s.cfg.lenw) : hostWrite reg.number v s = .next (putReg reg v s) :=
  hostWrite_eq_next.mpr ⟨reg, ofNumber_number reg, hmay, hv, .inr ⟨hcmd, rfl⟩⟩

/-- Settles O51: the table is the definitions' own; a write goes to one register through `putReg`. -/
theorem hostWriteSetsOneRegister : Obligations.HostWriteSetsOneRegister := by
  refine ⟨fun _ => rfl, fun _ _ => ⟨rfl, rfl, rfl, rfl⟩, fun _ _ => ofNumber_eq_some_iff, ?_⟩
  intro s reg v rest hp hmay hcmd hv
  refine ⟨putReg reg v (withPending rest s), ?_, getReg_putReg_same hmay hcmd hv _, fun q hq => ?_,
    by simp, by simp, by simp, by simp, by simp⟩
  · exact (step_of_pending hp).trans (hostWrite_number hmay hcmd hv)
  · rw [getReg_putReg_other hq, getReg_withPending]

/-- R13, R15: a read of a register the host may read needs that it holds a value. -/
theorem hostRead_number {reg : Reg} (hmay : reg.hostMayRead = true) (s : State) :
    hostRead reg.number s = andThen (need reg (getReg reg s)) fun v => .next (withReply (.reg reg v) s) := by
  simp [hostRead, hmay]

/-- Settles O52: the two cases are the two contents a register can have. -/
theorem hostReadBringsTheValue : Obligations.HostReadBringsTheValue := by
  intro s reg rest hp hmay
  have hstep := (step_of_pending hp).trans (hostRead_number hmay _)
  rw [getReg_withPending] at hstep
  constructor
  · intro v hv
    rw [hstep, hv]
    rfl
  · intro hv
    rw [hstep, hv]
    rfl

/-! ### Actions that are turned away -/

theorem hostWrite_of_no_register {n : Nat} (hn : Reg.ofNumber n = none) (v : Nat) (s : State) :
    hostWrite n v s = .refused (.noSuchRegister n) := by
  rw [hostWrite, hn]

theorem hostRead_of_no_register {n : Nat} (hn : Reg.ofNumber n = none) (s : State) :
    hostRead n s = .refused (.noSuchRegister n) := by
  rw [hostRead, hn]

/-- An action that a step completes is well-formed. -/
theorem wf_of_step {s t : State} {a : HostAction} {rest : List HostAction} (hp : s.pending = a :: rest)
    (h : step s = .next t) : a.wf s.cfg.lenw = true := by
  rw [step_of_pending hp] at h
  cases a with
  | wr n v =>
    obtain ⟨reg, hreg, hmay, hv, -⟩ := hostWrite_eq_next.mp h
    rw [withPending_cfg] at hv
    simp [HostAction.wf, hreg, hmay, hv]
  | rd n =>
    obtain ⟨reg, v, hreg, hmay, -⟩ := hostRead_eq_next.mp h
    simp [HostAction.wf, hreg, hmay]
  | wrSrc off bs => exact (hostWriteSrc_eq_next.mp h).1
  | rdDst off n => exact (hostReadDst_eq_next.mp h).1
  | reset => rfl

/-- Settles O53: numbers that name no register and forbidden registers have an answer of their own; that nothing
ill-formed completes is the contrapositive of `wf_of_step`. -/
theorem hostViolationsAreTurnedAway : Obligations.HostViolationsAreTurnedAway := by
  refine ⟨fun s n v rest hn => ?_, fun s v rest => ?_, fun s t a rest hp hwf h => ?_⟩
  · have hnone := ofNumber_eq_none hn
    exact ⟨fun hp => (step_of_pending hp).trans (hostWrite_of_no_register hnone v _),
      fun hp => (step_of_pending hp).trans (hostRead_of_no_register hnone _)⟩
  · exact ⟨fun hp => step_of_pending hp, fun hp => step_of_pending hp, fun hp => step_of_pending hp⟩
  · cases hwf.symm.trans (wf_of_step hp h)

/-! ### The buffers -/

theorem inSpace_of_le {lenw off n : Nat} (h : off + n ≤ 2 ^ lenw) : inSpace lenw off n = true :=
  inSpace_iff.mpr (.inr h)

theorem hostWriteSrc_of_inSpace {off : Nat} {bs : List Byte} {s : State}
    (h : inSpace s.cfg.lenw off bs.length = true) : hostWriteSrc off bs s = .next (putSrc off bs s) :=
  hostWriteSrc_eq_next.mpr ⟨h, rfl⟩

theorem hostReadDst_of_inSpace {off n : Nat} {s : State} (h : inSpace s.cfg.lenw off n = true) :
    hostReadDst off n s = andThen (readBytes .dst s.dst off n) fun bs => .next (withReply (.bytes off bs) s) := by
  simp [hostReadDst, h]

/-- A range with a byte that holds no value is refused for such a byte. -/
theorem readBytes_of_novalue {sp : Space} {m : Memory} {off n k : Nat} (hk : k < n)
    (h : Memory.get m (off + k) = .novalue) :
    ∃ j, j < n ∧ Memory.get m (off + j) = .novalue ∧ readBytes sp m off n = .refused (.noValueByte sp (off + j)) := by
  cases hr : readBytes sp m off n with
  | next bs =>
    obtain ⟨hlen, hbs⟩ := readBytes_eq_next.mp hr
    cases h.symm.trans (hbs k (by omega))
  | fault e => exact absurd hr (readBytes_ne_fault sp m off n e)
  | refused e =>
    obtain ⟨a, hoff, ha, hnone, rfl⟩ := readBytes_eq_refused hr
    obtain ⟨j, rfl⟩ := Nat.exists_eq_add_of_le hoff
    exact ⟨j, by omega, hnone, rfl⟩

/-- Settles O54: WRSRC is `setBytes`, RDDST is `readBytes`, and each is known byte by byte. -/
theorem hostReachesTheBuffers : Obligations.HostReachesTheBuffers := by
  refine ⟨fun s off bs rest hp hin => ?_, fun s off bs rest hp hin hbs => ?_,
    fun s off n k rest hp hin hk hnone => ?_⟩
  · refine ⟨Memory.setBytes s.src off bs, ?_, fun k hk => ?_, fun a ha => ?_⟩
    · exact (step_of_pending hp).trans (hostWriteSrc_of_inSpace (inSpace_of_le hin))
    · rw [get_setBytes, dif_pos (by omega)]
      simp
    · rw [get_setBytes, dif_neg (by omega)]
  · have hread : readBytes .dst s.dst off bs.length = .next bs := readBytes_eq_next.mpr ⟨rfl, hbs⟩
    have hstep := (step_of_pending hp).trans (hostReadDst_of_inSpace (inSpace_of_le hin))
    rw [hstep, withPending_dst, hread]
    rfl
  · obtain ⟨j, hj, hnone', hread⟩ := readBytes_of_novalue (sp := .dst) hk hnone
    have hstep := (step_of_pending hp).trans (hostReadDst_of_inSpace (inSpace_of_le hin))
    exact ⟨j, hj, hnone', by rw [hstep, withPending_dst, hread]; rfl⟩

/-! ### Reset -/

theorem getReg_reset {reg : Reg} (h : reg ≠ .status) : getReg reg State.reset = .novalue := by
  cases reg with
  | status => exact absurd rfl h
  | key i => exact getReg_key_novalue (by revert i; decide)
  | _ => rfl

@[simp] theorem getReg_coreReset (reg : Reg) (s : State) : getReg reg (coreReset s) = getReg reg State.reset := by
  cases reg <;> rfl

/-- Settles O55: the action puts every register and byte to what it holds in the reset state. -/
theorem resetLeavesNovalue : Obligations.ResetLeavesNovalue := by
  refine ⟨fun _ => getReg_reset, rfl, fun _ => ⟨rfl, rfl⟩, rfl, fun s rest hp => ?_⟩
  exact ⟨coreReset (withPending rest s), step_of_pending hp, fun reg => getReg_coreReset reg _,
    fun _ => ⟨rfl, rfl⟩, rfl, rfl, rfl⟩

end Sys2Proof.Machine

/-! PROOFS. What every command leaves unchanged, and what it puts in STATUS, L, R and BOUT (10_state.md R14, R23,
R25). -/

namespace Sys2Proof.Machine

/-! ### The frame -/

/-- `t` has what no command writes as `s` has it: the operands, SRC, the ROM and the host's lists. -/
structure KeepsOperands (s t : State) : Prop where
  cfg : t.cfg = s.cfg
  key : t.key = s.key
  rkey : t.rkey = s.rkey
  bin : t.bin = s.bin
  iv : t.iv = s.iv
  srcLen : t.srcLen = s.srcLen
  dstLen : t.dstLen = s.dstLen
  src : t.src = s.src
  pending : t.pending = s.pending
  replies : t.replies = s.replies

theorem exec_keepsOperands {i : Instr} {s t : State} (h : exec i s = .next t) : KeepsOperands s t := by
  obtain ⟨_, -, rfl⟩ | ⟨_, -, rfl⟩ | ⟨_, -, rfl⟩ | ⟨_, _, -, -, -, rfl⟩ := exec_cases h
  · exact ⟨rfl, rfl, rfl, rfl, rfl, rfl, rfl, rfl, rfl, rfl⟩
  · exact ⟨rfl, rfl, rfl, rfl, rfl, rfl, rfl, rfl, rfl, rfl⟩
  · exact ⟨rfl, rfl, rfl, rfl, rfl, rfl, rfl, rfl, rfl, rfl⟩
  · exact ⟨rfl, rfl, rfl, rfl, rfl, rfl, rfl, rfl, rfl, rfl⟩

/-- Only a buffer command writes DST. -/
theorem exec_keeps_dst {i : Instr} {s t : State} (h : exec i s = .next t) (hi : ¬isBuffer i) : t.dst = s.dst := by
  obtain ⟨_, -, rfl⟩ | ⟨_, -, rfl⟩ | ⟨_, hbuf, -⟩ | ⟨_, _, hbuf, -⟩ := exec_cases h
  · rfl
  · rfl
  · exact absurd hbuf hi
  · exact absurd hbuf hi

theorem not_isBuffer {i : Instr} (h : i = .round ∨ i = .encblk ∨ i = .decblk) : ¬isBuffer i := by
  obtain rfl | rfl | rfl := h <;> simp [isBuffer, isEcb, isGamma]

/-- Settles O44: the frame of every command, and of DST for the commands that are no buffer command. -/
theorem commandsKeepOperands : Obligations.CommandsKeepOperands := by
  intro i s t h
  obtain ⟨hcfg, hkey, hrkey, hbin, hiv, hsrcLen, hdstLen, hsrc, hpending, hreplies⟩ := exec_keepsOperands h
  exact ⟨hkey, hrkey, hbin, hiv, hsrcLen, hdstLen, fun _ => by rw [hsrc], hcfg, hpending, hreplies,
    fun hi _ => by rw [exec_keeps_dst h (not_isBuffer hi)]⟩

/-- A command changes no register but STATUS, BOUT, L and R. -/
theorem getReg_exec {i : Instr} {s t : State} (h : exec i s = .next t) {reg : Reg}
    (hreg : ¬(reg = .status ∨ reg = .bout ∨ reg = .l ∨ reg = .r)) : getReg reg t = getReg reg s := by
  have hkeep := exec_keepsOperands h
  cases reg with
  | status | bout | l | r => simp at hreg
  | cmd => rfl
  | srcLen => exact hkeep.srcLen
  | dstLen => exact hkeep.dstLen
  | iv => exact congrArg Held.toNat hkeep.iv
  | rkey => exact congrArg Held.toNat hkeep.rkey
  | bin => exact congrArg Held.toNat hkeep.bin
  | key k => simp only [getReg, hkeep.key]

/-! ### STATUS and the discarded results -/

theorem statusWord_mem (o : Option LengthError) : statusWord o = 0 ∨ statusWord o = 1 ∨ statusWord o = 2 := by
  obtain _ | _ | _ := o <;> decide

theorem statusWord_some_ne_zero (e : LengthError) : statusWord (some e) ≠ 0 := by
  cases e <;> decide

/-- R25: STATUS is one of the three codes after every command. -/
theorem exec_status_mem {i : Instr} {s t : State} (h : exec i s = .next t) :
    t.status = 0 ∨ t.status = 1 ∨ t.status = 2 := by
  obtain ⟨_, -, rfl⟩ | ⟨_, -, rfl⟩ | ⟨e, -, rfl⟩ | ⟨_, _, -, -, -, rfl⟩ := exec_cases h
  · exact .inl rfl
  · exact .inl rfl
  · exact statusWord_mem (some e)
  · exact .inl rfl

/-- Settles O41: only a buffer command can end with an error. -/
theorem statusCodesAreClosed : Obligations.StatusCodesAreClosed := by
  refine fun i s t h => ⟨exec_status_mem h, fun hi => ?_⟩
  obtain ⟨_, -, rfl⟩ | ⟨_, -, rfl⟩ | ⟨_, hbuf, -⟩ | ⟨_, _, hbuf, -⟩ := exec_cases h
  · rfl
  · rfl
  · exact absurd hbuf (not_isBuffer hi)
  · exact absurd hbuf (not_isBuffer hi)

theorem isBuffer_ne {i : Instr} (h : isBuffer i) : i ≠ .round ∧ i ≠ .encblk ∧ i ≠ .decblk := by
  obtain (rfl | rfl) | (rfl | rfl) := h <;> decide

/-- Settles O45: each way to succeed writes the results it names and discards the others; an error writes STATUS
alone. -/
theorem successDiscardsUnnamedResults : Obligations.SuccessDiscardsUnnamedResults := by
  intro i s t h
  obtain ⟨p, rfl, rfl⟩ | ⟨b, hi, rfl⟩ | ⟨e, -, rfl⟩ | ⟨dst, n, hbuf, -, -, rfl⟩ := exec_cases h
  · exact ⟨fun _ => by simp, fun hne => absurd rfl hne⟩
  · refine ⟨fun _ => ?_, fun hne => absurd rfl hne⟩
    obtain rfl | rfl := hi <;> simp
  · exact ⟨fun hzero => absurd hzero (statusWord_some_ne_zero e), fun _ => ⟨rfl, rfl, rfl⟩⟩
  · obtain ⟨hround, henc, hdec⟩ := isBuffer_ne hbuf
    refine ⟨fun _ => ?_, fun hne => absurd rfl hne⟩
    simp [hround, henc, hdec]

/-- Settles O48: no condition of a command looks at STATUS, and each of its ends overwrites it. -/
theorem commandsIgnoreStatus : Obligations.CommandsIgnoreStatus := by
  intro i s x
  have hround (p) : roundDone p { s with status := x } = roundDone p s := rfl
  have hblock (b) : blockDone b { s with status := x } = blockDone b s := rfl
  have herror (e) : raiseError e { s with status := x } = raiseError e s := rfl
  have hbuffer (d) : bufferDone d { s with status := x } = bufferDone d s := rfl
  cases i with
  | round => simp only [exec, execRound, hround]
  | encblk => simp only [exec, execEncblk, blockCommand, hblock]
  | decblk => simp only [exec, execDecblk, blockCommand, hblock]
  | encecb => simp only [exec, execEncecb, ecbCommand, herror, hbuffer]
  | dececb => simp only [exec, execDececb, ecbCommand, herror, hbuffer]
  | encgam => simp only [exec, execEncgam, gammaCommand, herror, hbuffer]
  | decgam => simp only [exec, execDecgam, gammaCommand, herror, hbuffer]

end Sys2Proof.Machine

/-! PROOFS. The invariant of every step (00_scope.md R5, 10_state.md R25, R26, R28). -/

namespace Sys2Proof.Machine

/-! ### Commands keep the invariant -/

/-- A buffer command writes DST in canonical form and below its length, which is below 2^LENW. -/
theorem exec_keeps_dst_legal {i : Instr} {s t : State} {lenw : Nat} (h : exec i s = .next t)
    (hfits : lengthFits lenw s.srcLen) (hwf : Memory.wf s.dst) (hwithin : Memory.Within lenw s.dst) :
    Memory.wf t.dst ∧ Memory.Within lenw t.dst := by
  have ecb {d} (h : ecbCommand d s = .next t) : Memory.wf t.dst ∧ Memory.Within lenw t.dst := by
    obtain ⟨n, m, ⟨hn, -⟩, ⟨_, -, rfl⟩ | ⟨-, -, rfl⟩ | ⟨-, h8, -, _, dst, -, hrun, rfl⟩⟩ := ecbCommand_eq_next.mp h
    · exact ⟨hwf, hwithin⟩
    · exact ⟨hwf, hwithin⟩
    · have hlt : n < 2 ^ lenw := by rwa [hn] at hfits
      exact ⟨ecbChunks_wf hrun hwf,
        ecbChunks_within hrun hwithin (by simp only [chunkOffset, chunkBytes]; omega)⟩
  have gam (h : gammaCommand s = .next t) : Memory.wf t.dst ∧ Memory.Within lenw t.dst := by
    obtain ⟨n, m, ⟨hn, -⟩, ⟨-, rfl⟩ | ⟨-, -, rfl⟩ | ⟨-, -, _, _, p, dst, -, -, hrun, htail, rfl⟩⟩ :=
      gammaCommand_eq_next.mp h
    · exact ⟨hwf, hwithin⟩
    · exact ⟨hwf, hwithin⟩
    · have hlt : n < 2 ^ lenw := by rwa [hn] at hfits
      have hpWithin := gammaChunks_within hrun hwithin (by simp only [chunkOffset, chunkBytes]; omega)
      exact ⟨gammaTail_wf htail (gammaChunks_wf hrun hwf),
        gammaTail_within htail hpWithin (by simp only [chunkOffset, chunkBytes]; omega)⟩
  cases i with
  | round | encblk | decblk =>
    rw [exec_keeps_dst h (not_isBuffer (by simp))]
    exact ⟨hwf, hwithin⟩
  | encecb | dececb => exact ecb h
  | encgam | decgam => exact gam h

theorem inv_exec {i : Instr} {s t : State} (hs : s.Inv) (h : exec i s = .next t) : t.Inv := by
  have hkeep := exec_keepsOperands h
  obtain ⟨hwf, hwithin⟩ := exec_keeps_dst_legal h hs.srcLen hs.dstWf hs.dstWithin
  exact {
    cfg := hkeep.cfg ▸ hs.cfg
    srcWf := hkeep.src ▸ hs.srcWf
    dstWf := hwf
    srcWithin := by rw [hkeep.cfg, hkeep.src]; exact hs.srcWithin
    dstWithin := by rw [hkeep.cfg]; exact hwithin
    srcLen := by rw [hkeep.cfg, hkeep.srcLen]; exact hs.srcLen
    dstLen := by rw [hkeep.cfg, hkeep.dstLen]; exact hs.dstLen
    status := exec_status_mem h }

/-! ### The host's actions keep the invariant -/

theorem inv_withPending {s : State} (hs : s.Inv) (as : List HostAction) : (withPending as s).Inv :=
  ⟨hs.cfg, hs.srcWf, hs.dstWf, hs.srcWithin, hs.dstWithin, hs.srcLen, hs.dstLen, hs.status⟩

theorem inv_withReply {s : State} (hs : s.Inv) (a : Reply) : (withReply a s).Inv :=
  ⟨hs.cfg, hs.srcWf, hs.dstWf, hs.srcWithin, hs.dstWithin, hs.srcLen, hs.dstLen, hs.status⟩

theorem inv_putSrc {s : State} (hs : s.Inv) {off : Nat} {bs : List Byte}
    (hin : inSpace s.cfg.lenw off bs.length = true) : (putSrc off bs s).Inv where
  cfg := hs.cfg
  srcWf := wf_setBytes off bs hs.srcWf
  dstWf := hs.dstWf
  srcWithin := within_setBytes hs.srcWithin ((inSpace_iff.mp hin).imp_left List.eq_nil_of_length_eq_zero)
  dstWithin := hs.dstWithin
  srcLen := hs.srcLen
  dstLen := hs.dstLen
  status := hs.status

/-- A register of LENW bits still holds a number of LENW bits after a host write to any register. -/
theorem lengthFits_putReg {q reg : Reg} {lenw v : Nat} {s : State} (hq : q.width lenw = lenw)
    (hs : lengthFits lenw (getReg q s)) (hmay : reg.hostMayWrite = true) (hcmd : reg ≠ .cmd)
    (hv : v < 2 ^ reg.width lenw) : lengthFits lenw (getReg q (putReg reg v s)) := by
  by_cases hqreg : q = reg
  · subst hqreg
    rw [getReg_putReg_same hmay hcmd hv]
    rwa [hq] at hv
  · rwa [getReg_putReg_other hqreg]

theorem inv_putReg {s : State} (hs : s.Inv) {reg : Reg} {v : Nat} (hmay : reg.hostMayWrite = true) (hcmd : reg ≠ .cmd)
    (hv : v < 2 ^ reg.width s.cfg.lenw) : (putReg reg v s).Inv where
  cfg := by rw [putReg_cfg]; exact hs.cfg
  srcWf := by rw [putReg_src]; exact hs.srcWf
  dstWf := by rw [putReg_dst]; exact hs.dstWf
  srcWithin := by rw [putReg_cfg, putReg_src]; exact hs.srcWithin
  dstWithin := by rw [putReg_cfg, putReg_dst]; exact hs.dstWithin
  srcLen := by rw [putReg_cfg]; exact lengthFits_putReg (q := .srcLen) rfl hs.srcLen hmay hcmd hv
  dstLen := by rw [putReg_cfg]; exact lengthFits_putReg (q := .dstLen) rfl hs.dstLen hmay hcmd hv
  status := by rw [putReg_status]; exact hs.status

theorem inv_coreReset {s : State} (hcfg : s.cfg.Wf) : (coreReset s).Inv where
  cfg := hcfg
  srcWf := List.Pairwise.nil
  dstWf := List.Pairwise.nil
  srcWithin := fun _ h => by cases h
  dstWithin := fun _ h => by cases h
  srcLen := trivial
  dstLen := trivial
  status := .inl rfl

/-- Settles O56: the reset state is what a reset makes of it, and the default table is legal. -/
theorem resetMeetsTheInvariant : Obligations.ResetMeetsTheInvariant :=
  inv_coreReset (s := State.reset) ⟨defaultTableMeetsItsVectors.1, by decide⟩

/-- Settles O57: a step is a command or one update of the host's, and each of them keeps the invariant. -/
theorem everyStepKeepsTheInvariant : Obligations.EveryStepKeepsTheInvariant := by
  intro s t hs h
  obtain ⟨-, rfl⟩ | ⟨a, rest, -, hcase⟩ := step_cases h
  · exact hs
  have hrest := inv_withPending hs rest
  obtain ⟨i, w, -, -, -, hexec⟩ | ⟨reg, v, -, hcmd, hmay, hv, rfl⟩ | ⟨reg, v, -, -, -, rfl⟩ | ⟨off, bs, -, hin, rfl⟩ |
    ⟨off, n, bs, -, -, -, rfl⟩ | ⟨-, rfl⟩ := hcase
  · exact inv_exec hrest hexec
  · exact inv_putReg hrest hmay hcmd hv
  · exact inv_withReply hrest _
  · exact inv_putSrc hrest hin
  · exact inv_withReply hrest _
  · exact inv_coreReset hrest.cfg

end Sys2Proof.Machine

/-! PROOFS. What a step can change (10_state.md R10 to R28, 70_reset_and_hazards.md R180), and instances side by side
(20_memory.md R53, 60_exceptions.md R170). -/

namespace Sys2Proof.Machine

/-! ### The cause of every change -/

/-- R27: no step writes the ROM. -/
theorem step_cfg {s t : State} (h : step s = .next t) : t.cfg = s.cfg := by
  obtain ⟨-, rfl⟩ | ⟨a, rest, -, hcase⟩ := step_cases h
  · rfl
  obtain ⟨i, w, -, -, -, hexec⟩ | ⟨reg, v, -, -, -, -, rfl⟩ | ⟨_, _, -, -, -, rfl⟩ | ⟨_, _, -, -, rfl⟩ |
    ⟨_, _, _, -, -, -, rfl⟩ | ⟨-, rfl⟩ := hcase
  · exact (exec_keepsOperands hexec).cfg
  · exact putReg_cfg reg v _
  · rfl
  · rfl
  · rfl
  · rfl

/-- Settles O58. -/
theorem romAndWidthNeverChange : Obligations.RomAndWidthNeverChange := fun _ _ => step_cfg

/-- The host's number for a command is its word. -/
theorem eq_toNat_encode {w : Nat} {i : Instr} (hw : w < 2 ^ 32) (hd : decode (BitVec.ofNat 32 w) = .ok i) :
    w = (encode i).toNat := by
  rw [← decode_eq_ok_iff.mp hd, BitVec.toNat_ofNat, Nat.mod_eq_of_lt hw]

/-- A register changes by reset, by a host write to it, or, for STATUS, BOUT, L and R, by a command. -/
theorem step_getReg_cause {s t : State} {reg : Reg} (h : step s = .next t) (hne : getReg reg t ≠ getReg reg s) :
    ∃ a rest, s.pending = a :: rest ∧
      (a = .reset ∨ (∃ v, a = .wr reg.number v ∧ reg.hostMayWrite = true) ∨
       (reg = .status ∨ reg = .bout ∨ reg = .l ∨ reg = .r) ∧ ∃ v, a = .wr 0 v) := by
  obtain ⟨-, rfl⟩ | ⟨a, rest, hp, hcase⟩ := step_cases h
  · exact absurd rfl hne
  refine ⟨a, rest, hp, ?_⟩
  obtain ⟨i, w, rfl, -, -, hexec⟩ | ⟨q, v, rfl, -, hmay, -, rfl⟩ | ⟨_, _, -, -, -, rfl⟩ | ⟨_, _, -, -, rfl⟩ |
    ⟨_, _, _, -, -, -, rfl⟩ | ⟨ha, -⟩ := hcase
  · refine .inr (.inr ⟨?_, w, rfl⟩)
    by_contra hreg
    exact hne ((getReg_exec hexec hreg).trans (getReg_withPending reg rest s))
  · by_cases hq : reg = q
    · subst hq
      exact .inr (.inl ⟨v, rfl, hmay⟩)
    · exact absurd ((getReg_putReg_other hq v _).trans (getReg_withPending reg rest s)) hne
  · exact absurd ((getReg_withReply ..).trans (getReg_withPending reg rest s)) hne
  · exact absurd ((getReg_putSrc ..).trans (getReg_withPending reg rest s)) hne
  · exact absurd ((getReg_withReply ..).trans (getReg_withPending reg rest s)) hne
  · exact .inl ha

/-- A byte of SRC changes by reset or by a WRSRC whose range has it. -/
theorem step_src_cause {s t : State} {a : Nat} (h : step s = .next t)
    (hne : Memory.get t.src a ≠ Memory.get s.src a) :
    ∃ x rest, s.pending = x :: rest ∧
      (x = .reset ∨ ∃ off bs, x = .wrSrc off bs ∧ off ≤ a ∧ a < off + bs.length) := by
  obtain ⟨-, rfl⟩ | ⟨x, rest, hp, hcase⟩ := step_cases h
  · exact absurd rfl hne
  refine ⟨x, rest, hp, ?_⟩
  obtain ⟨i, w, -, -, -, hexec⟩ | ⟨reg, v, -, -, -, -, rfl⟩ | ⟨_, _, -, -, -, rfl⟩ | ⟨off, bs, rfl, -, rfl⟩ |
    ⟨_, _, _, -, -, -, rfl⟩ | ⟨hx, -⟩ := hcase
  · exact absurd (by rw [(exec_keepsOperands hexec).src, withPending_src]) hne
  · exact absurd (by rw [putReg_src, withPending_src]) hne
  · exact absurd rfl hne
  · rw [putSrc_src, withPending_src, get_setBytes] at hne
    obtain ⟨hlow, hhigh⟩ : off ≤ a ∧ a < off + bs.length := by
      by_contra hout
      exact hne (dif_neg hout)
    exact .inr ⟨off, bs, rfl, hlow, hhigh⟩
  · exact absurd rfl hne
  · exact .inl hx

/-- A byte of DST changes by reset or by a buffer command. -/
theorem step_dst_cause {s t : State} {a : Nat} (h : step s = .next t)
    (hne : Memory.get t.dst a ≠ Memory.get s.dst a) :
    ∃ x rest, s.pending = x :: rest ∧ (x = .reset ∨ ∃ i, isBuffer i ∧ x = .wr 0 (encode i).toNat) := by
  obtain ⟨-, rfl⟩ | ⟨x, rest, hp, hcase⟩ := step_cases h
  · exact absurd rfl hne
  refine ⟨x, rest, hp, ?_⟩
  obtain ⟨i, w, rfl, hw, hd, hexec⟩ | ⟨reg, v, -, -, -, -, rfl⟩ | ⟨_, _, -, -, -, rfl⟩ | ⟨_, _, -, -, rfl⟩ |
    ⟨_, _, _, -, -, -, rfl⟩ | ⟨hx, -⟩ := hcase
  · refine .inr ⟨i, ?_, by rw [← eq_toNat_encode hw hd]⟩
    by_contra hbuf
    exact hne (by rw [exec_keeps_dst hexec hbuf, withPending_dst])
  · exact absurd (by rw [putReg_dst, withPending_dst]) hne
  · exact absurd rfl hne
  · exact absurd rfl hne
  · exact absurd rfl hne
  · exact .inl hx

/-- Settles O59: one lemma for each kind of thing that can change. -/
theorem everyChangeHasItsCause : Obligations.EveryChangeHasItsCause := fun _ _ h =>
  ⟨fun _ => step_getReg_cause h, fun _ => step_src_cause h, fun _ => step_dst_cause h⟩

/-! ### Instances -/

/-- A step at a position puts the next state there; where the list has none, nothing happens. -/
theorem stepInstance_eq_next {k : Nat} {is js : Instances} : stepInstance k is = .next js ↔
    (is[k]? = none ∧ js = is) ∨ ∃ s t, is[k]? = some s ∧ step s = .next t ∧ js = is.set k t := by
  unfold stepInstance
  cases is[k]? with
  | none => simp [eq_comm]
  | some s => simp [andThen_eq_next, eq_comm (a := js)]

theorem getElem?_stepInstance_other {is js : Instances} {j k : Nat} (hjk : j ≠ k) (h : stepInstance j is = .next js) :
    js[k]? = is[k]? := by
  obtain ⟨-, rfl⟩ | ⟨s, t, -, -, rfl⟩ := stepInstance_eq_next.mp h
  · rfl
  · exact List.getElem?_set_ne hjk

theorem length_stepInstance {is js : Instances} {j : Nat} (h : stepInstance j is = .next js) :
    js.length = is.length := by
  obtain ⟨-, rfl⟩ | ⟨s, t, -, -, rfl⟩ := stepInstance_eq_next.mp h
  · rfl
  · exact List.length_set

/-- A step keeps the table of the core that steps, so it keeps that all tables are one. -/
theorem shareSbox_stepInstance {is js : Instances} {j : Nat} (h : stepInstance j is = .next js)
    (hshare : is.ShareSbox) : js.ShareSbox := by
  obtain ⟨-, rfl⟩ | ⟨s, t, hs, hstep, rfl⟩ := stepInstance_eq_next.mp h
  · exact hshare
  have hold : ∀ u ∈ is.set j t, ∃ v ∈ is, u.cfg = v.cfg := by
    intro u hu
    obtain hu | rfl := List.mem_or_eq_of_mem_set hu
    · exact ⟨u, hu, rfl⟩
    · exact ⟨s, List.mem_of_getElem? hs, step_cfg hstep⟩
  intro u hu v hv
  obtain ⟨u', hu', hucfg⟩ := hold u hu
  obtain ⟨v', hv', hvcfg⟩ := hold v hv
  rw [hucfg, hvcfg]
  exact hshare u' hu' v' hv'

/-- Two instances that step one after the other can do so in the other order. -/
theorem stepInstance_comm {is js : Instances} {j k : Nat} (hjk : j ≠ k)
    (h : andThen (stepInstance j is) (stepInstance k) = .next js) :
    andThen (stepInstance k is) (stepInstance j) = .next js := by
  obtain ⟨ms, hj, hk⟩ := andThen_eq_next.mp h
  have hsame := getElem?_stepInstance_other hjk hj
  refine andThen_eq_next.mpr ?_
  obtain ⟨hnone, rfl⟩ | ⟨u, v, hu, hv, rfl⟩ := stepInstance_eq_next.mp hk
  · exact ⟨is, stepInstance_eq_next.mpr (.inl ⟨hsame.symm.trans hnone, rfl⟩), hj⟩
  refine ⟨is.set k v, stepInstance_eq_next.mpr (.inr ⟨u, v, hsame.symm.trans hu, hv, rfl⟩), ?_⟩
  have hother : (is.set k v)[j]? = is[j]? := List.getElem?_set_ne hjk.symm
  obtain ⟨hnone, rfl⟩ | ⟨s, t, hs, ht, rfl⟩ := stepInstance_eq_next.mp hj
  · exact stepInstance_eq_next.mpr (.inl ⟨hother.trans hnone, rfl⟩)
  · exact stepInstance_eq_next.mpr (.inr ⟨s, t, hother.trans hs, ht, List.set_comm t v hjk⟩)

/-- Settles O60. -/
theorem instancesDoNotInteract : Obligations.InstancesDoNotInteract := fun _ _ _ _ hjk =>
  ⟨fun h => ⟨getElem?_stepInstance_other hjk h, length_stepInstance h, shareSbox_stepInstance h⟩,
    stepInstance_comm hjk, stepInstance_comm hjk.symm⟩

end Sys2Proof.Machine

/-! PROOFS. The buffer commands as functions of what they read (44_ecb.md R120, 45_gamma.md R130 and R135). -/

namespace Sys2Proof.Machine

/-! ### The output, byte by byte -/

/-- R120: byte a of the output of an ECB command. -/
def ecbByte (sb : Sbox) (key : Key) (d : Dir) (src : Nat → Byte) (a : Nat) : Byte :=
  byteOf (block sb key d (chunkValue src (a / 8))) (a % 8)

/-- Byte a of the output of a buffer command (R120, R135); the others have no output in DST. -/
def outputByte (i : Instr) (sb : Sbox) (key : Key) (iv : Word) (src : Nat → Byte) (a : Nat) : Byte :=
  match i with
  | .encecb => ecbByte sb key .enc src a
  | .dececb => ecbByte sb key .dec src a
  | .encgam | .decgam => src a ^^^ keystreamByte sb key iv a
  | .round | .encblk | .decblk => 0

theorem outputByte_of_isGamma {i : Instr} (hi : isGamma i) (sb : Sbox) (key : Key) (iv : Word) (src : Nat → Byte)
    (a : Nat) : outputByte i sb key iv src a = src a ^^^ keystreamByte sb key iv a := by
  obtain rfl | rfl := hi <;> rfl

theorem outputByte_of_mem_ecbInstrs {i : Instr} {d : Dir} (hi : (i, d) ∈ ecbInstrs) (sb : Sbox) (key : Key) (iv : Word)
    (src : Nat → Byte) (a : Nat) : outputByte i sb key iv src a = ecbByte sb key d src a := by
  simp only [ecbInstrs, List.mem_cons, Prod.mk.injEq, List.not_mem_nil, or_false] at hi
  obtain ⟨rfl, rfl⟩ | ⟨rfl, rfl⟩ := hi <;> rfl

theorem ecbByte_chunkOffset (sb : Sbox) (key : Key) (d : Dir) (src : Nat → Byte) (c : Nat) {k : Nat} (hk : k < 8) :
    ecbByte sb key d src (chunkOffset c + k) = byteOf (block sb key d (chunkValue src c)) k := by
  rw [ecbByte, chunkOffset, chunkBytes, show (8 * c + k) / 8 = c by omega, show (8 * c + k) % 8 = k by omega]

theorem chunkOffset_div_add_mod (a : Nat) : chunkOffset (a / 8) + a % 8 = a :=
  Nat.div_add_mod a 8

/-- A chunk's value depends on its eight bytes alone. -/
theorem chunkValue_congr {src src' : Nat → Byte} {c c' : Nat}
    (h : ∀ k, k < 8 → src (chunkOffset c + k) = src' (chunkOffset c' + k)) : chunkValue src c = chunkValue src' c' :=
  congrArg leValue (List.map_congr_left fun k hk => h k (List.mem_range.mp hk))

/-- The bytes of a chunk's value are the chunk's bytes (R43). -/
theorem byteOf_chunkValue (src : Nat → Byte) (c : Nat) {k : Nat} (hk : k < 8) :
    byteOf (chunkValue src c) k = src (chunkOffset c + k) := by
  rw [chunkValue, byteOf_leValue (by simp) (by simpa using hk), List.getElem_map, List.getElem_range]

/-- A chunk of an ECB output is the block operation of the source's chunk. -/
theorem chunkValue_ecbByte (sb : Sbox) (key : Key) (d : Dir) (src : Nat → Byte) (c : Nat) :
    chunkValue (ecbByte sb key d src) c = block sb key d (chunkValue src c) :=
  block_ext_bytes fun k hk => by rw [byteOf_chunkValue _ _ hk, ecbByte_chunkOffset _ _ _ _ _ hk]

/-- Two ECB passes of which the second's block operation undoes the first's give the source back. -/
theorem ecbByte_ecbByte {sb : Sbox} {key : Key} {d d' : Dir} (hinv : ∀ b, block sb key d' (block sb key d b) = b)
    (src : Nat → Byte) (a : Nat) : ecbByte sb key d' (ecbByte sb key d src) a = src a := by
  rw [ecbByte, chunkValue_ecbByte, hinv, byteOf_chunkValue _ _ (by omega), chunkOffset_div_add_mod]

/-! ### Lengths -/

theorem lengthError_of_isGamma {i : Instr} (hi : isGamma i) (n m : Nat) : lengthError n m i = validateGamma n m := by
  obtain rfl | rfl := hi <;> rfl

theorem lengthError_of_isEcb {i : Instr} (hi : isEcb i) (n m : Nat) : lengthError n m i = validateEcb n m := by
  obtain rfl | rfl := hi <;> rfl

theorem eq_of_lengthError_eq_none {i : Instr} (hi : isBuffer i) {n m : Nat} (h : lengthError n m i = none) : n = m := by
  obtain hi | hi := hi
  · rw [lengthError_of_isEcb hi] at h
    exact (validateEcb_eq_none.mp h).2
  · rw [lengthError_of_isGamma hi] at h
    exact validateGamma_eq_none.mp h

theorem lengthError_self_of_isGamma {i : Instr} (hi : isGamma i) (n : Nat) : lengthError n n i = none :=
  (lengthError_of_isGamma hi n n).trans (validateGamma_eq_none.mpr rfl)

theorem lengthError_self_of_isEcb {i : Instr} (hi : isEcb i) {n : Nat} : lengthError n n i = none ↔ n % 8 = 0 := by
  rw [lengthError_of_isEcb hi, validateEcb_eq_none]
  exact and_iff_left rfl

theorem lengths_unique {s : State} {n m n' m' : Nat} (hl : s.Lengths n m) (hl' : s.Lengths n' m') :
    n = n' ∧ m = m' :=
  ⟨Held.val.inj (hl.1.symm.trans hl'.1), Held.val.inj (hl.2.symm.trans hl'.2)⟩

/-- After a command that completes, STATUS is the code of what its lengths call for. -/
theorem status_eq_of_lengths {i : Instr} {s t : State} {n m : Nat} (hl : s.Lengths n m) (h : exec i s = .next t) :
    t.status = statusWord (lengthError n m i) := by
  cases he : lengthError n m i with
  | some e =>
    cases h.symm.trans (exec_of_lengthError hl he)
    rfl
  | none =>
    by_contra hne
    obtain ⟨n', m', e, hl', he', -⟩ := lengthError_of_status_ne_zero h hne
    obtain ⟨rfl, rfl⟩ := lengths_unique hl hl'
    cases he.symm.trans he'

/-! ### Operands that hold values -/

theorem exists_holdsKey {s : State} (h : s.KeyWritten) : ∃ key, s.HoldsKey key := by
  obtain ⟨key, hkey⟩ := needKey_of_written h
  exact ⟨key, needKey_eq_next.mp hkey⟩

theorem exists_holdsSource {s : State} {n : Nat} (h : s.SourceWritten n) : ∃ src, s.HoldsSource n src := by
  have hbyte : ∀ a, ∃ b, a < n → Memory.get s.src a = .val b := fun a => by
    by_cases ha : a < n
    · obtain ⟨b, hb⟩ := isVal_iff.mp (h a ha)
      exact ⟨b, fun _ => hb⟩
    · exact ⟨0, fun ha' => absurd ha' ha⟩
  exact Classical.skolem.mp hbyte

theorem keyWritten_of_holdsKey {s : State} {key : Key} (h : s.HoldsKey key) : s.KeyWritten := fun i =>
  isVal_iff.mpr ⟨_, h i⟩

theorem sourceWritten_of_holdsSource {s : State} {n : Nat} {src : Nat → Byte} (h : s.HoldsSource n src) :
    s.SourceWritten n := fun a ha => isVal_iff.mpr ⟨_, h a ha⟩

theorem holdsKey_unique {s : State} {key key' : Key} (h : s.HoldsKey key) (h' : s.HoldsKey key') : key = key' :=
  Vector.ext fun k hk => Held.val.inj ((h ⟨k, hk⟩).symm.trans (h' ⟨k, hk⟩))

/-- A chunk of a known source is read as its value. -/
theorem memRead_chunk {s : State} {n c : Nat} {src : Nat → Byte} (h : s.HoldsSource n src)
    (hc : chunkOffset (c + 1) ≤ n) : memRead s.src (chunkOffset c) 8 = .next (chunkValue src c) := by
  refine memRead_eq_next.mpr ⟨_, readBytes_eq_map_range fun k hk => h _ ?_, rfl⟩
  simp only [chunkOffset, chunkBytes] at *
  omega

/-! ### What a buffer command is given -/

/-- What a buffer command finds when it is to run on `n` bytes (R62, R182): accepted lengths, the source bytes, and,
with a byte to work on, the key, and IV for a gamma command. -/
structure Supplies (i : Instr) (s : State) (n : Nat) (key : Key) (iv : Word) (src : Nat → Byte) : Prop where
  lengths : s.Lengths n n
  accepted : lengthError n n i = none
  key : 0 < n → s.HoldsKey key
  iv : 0 < n → isGamma i → s.iv = .val iv
  source : s.HoldsSource n src

/-- The result of a buffer command on `n` bytes: `out` in DST below `n`, nothing of DST changed from `n` on. -/
def RunsTo (o : Res State) (s : State) (n : Nat) (out : Nat → Byte) : Prop :=
  ∃ dst, o = .next (bufferDone dst s) ∧ (∀ a, a < n → Memory.get dst a = .val (out a)) ∧
    ∀ a, n ≤ a → Memory.get dst a = Memory.get s.dst a

/-- R123 (a): both lengths 0, and nothing else is looked at. -/
theorem ecbCommand_of_empty {s : State} (hl : s.Lengths 0 0) (d : Dir) :
    ecbCommand d s = .next (bufferDone s.dst s) :=
  ecbCommand_eq_next.mpr ⟨0, 0, hl, .inr (.inl ⟨rfl, rfl, rfl⟩)⟩

/-- R137 (a): both lengths 0, and nothing else is looked at. -/
theorem gammaCommand_of_empty {s : State} (hl : s.Lengths 0 0) : gammaCommand s = .next (bufferDone s.dst s) :=
  gammaCommand_eq_next.mpr ⟨0, 0, hl, .inr (.inl ⟨rfl, rfl, rfl⟩)⟩

/-- A run that leaves DST is a run on no byte. -/
theorem runsTo_zero {o : Res State} {s : State} (h : o = .next (bufferDone s.dst s)) (out : Nat → Byte) :
    RunsTo o s 0 out :=
  ⟨s.dst, h, fun _ ha => absurd ha (Nat.not_lt_zero _), fun _ _ => rfl⟩

section
variable {s : State} {n : Nat} {key : Key} {src : Nat → Byte}

/-- R120: an ECB command on an accepted buffer with a key and source bytes. -/
theorem ecbCommand_runsTo {d : Dir} (hl : s.Lengths n n) (h8 : n % 8 = 0) (hkey : 0 < n → s.HoldsKey key)
    (hsrc : s.HoldsSource n src) : RunsTo (ecbCommand d s) s n (ecbByte s.cfg.sbox key d src) := by
  obtain rfl | hpos := Nat.eq_zero_or_pos n
  · exact runsTo_zero (ecbCommand_of_empty hl d) _
  have hread (a) (ha : a < chunkOffset (0 + n / 8)) : (Memory.get s.src a).isVal = true :=
    sourceWritten_of_holdsSource hsrc a (by simp only [chunkOffset, chunkBytes] at ha; omega)
  obtain ⟨dst, hdst⟩ := ecbChunks_of_written (f := block s.cfg.sbox key d) (dst := s.dst) fun a _ => hread a
  obtain ⟨hchunks, -⟩ := ecbChunks_spec hdst
  refine ⟨dst, ecbCommand_eq_next.mpr
      ⟨n, n, hl, .inr (.inr ⟨hpos, h8, rfl, key, dst, hkey hpos, hdst, rfl⟩)⟩, fun a ha => ?_, ecbRun_beyond h8 hdst⟩
  obtain ⟨v, hv, hbytes⟩ := hchunks (a / 8) (by omega) (by omega)
  have hvalue := memRead_chunk hsrc (c := a / 8) (by simp only [chunkOffset, chunkBytes]; omega)
  cases hv.symm.trans hvalue
  have hbyte := hbytes (a % 8) (by omega)
  rwa [chunkOffset_div_add_mod] at hbyte

/-- R130, R135: a gamma command on an accepted buffer with a key, an IV and source bytes. -/
theorem gammaCommand_runsTo {iv : Word} (hl : s.Lengths n n) (hkey : 0 < n → s.HoldsKey key)
    (hiv : 0 < n → s.iv = .val iv) (hsrc : s.HoldsSource n src) :
    RunsTo (gammaCommand s) s n fun a => src a ^^^ keystreamByte s.cfg.sbox key iv a := by
  obtain rfl | hpos := Nat.eq_zero_or_pos n
  · exact runsTo_zero (gammaCommand_of_empty hl) _
  have hwritten := sourceWritten_of_holdsSource hsrc
  obtain ⟨p, hp⟩ := gammaChunks_of_written (ks := block s.cfg.sbox key .enc) (src := s.src) (k := n / 8) (c := 0)
    (ctr := initialCounter iv) (dst := s.dst)
    fun a _ ha => hwritten a (by simp only [chunkOffset, chunkBytes] at ha; omega)
  obtain ⟨dst, hdst⟩ := gammaTail_of_written (ks := block s.cfg.sbox key .enc) (src := s.src) (q := n / 8)
    (rest := n % 8) (ctr := p.1) (dst := p.2)
    fun a _ ha => hwritten a (by simp only [chunkOffset, chunkBytes] at ha; omega)
  obtain ⟨hbytes, hbeyond⟩ := gammaRun_spec hp hdst
  refine ⟨dst, gammaCommand_eq_next.mpr
      ⟨n, n, hl, .inr (.inr ⟨hpos, rfl, iv, key, p, dst, hiv hpos, hkey hpos, hp, hdst, rfl⟩)⟩, fun a ha => ?_, hbeyond⟩
  obtain ⟨b, hb, hout⟩ := hbytes a ha
  cases hb.symm.trans (hsrc a ha)
  exact hout

end

section
variable {i : Instr} {s t : State} {n : Nat} {key : Key} {iv : Word} {src : Nat → Byte}

/-- A buffer command that is given what it needs completes with its output. -/
theorem exec_runsTo (hi : isBuffer i) (hs : Supplies i s n key iv src) :
    RunsTo (exec i s) s n (outputByte i s.cfg.sbox key iv src) := by
  obtain (rfl | rfl) | (rfl | rfl) := hi
  · exact ecbCommand_runsTo hs.lengths ((lengthError_self_of_isEcb (.inl rfl)).mp hs.accepted) hs.key hs.source
  · exact ecbCommand_runsTo hs.lengths ((lengthError_self_of_isEcb (.inr rfl)).mp hs.accepted) hs.key hs.source
  · exact gammaCommand_runsTo hs.lengths hs.key (fun hpos => hs.iv hpos (.inl rfl)) hs.source
  · exact gammaCommand_runsTo hs.lengths hs.key (fun hpos => hs.iv hpos (.inr rfl)) hs.source

/-- The same, of the state a command is known to end in. -/
theorem result_of_supplies (hi : isBuffer i) (hs : Supplies i s n key iv src) (h : exec i s = .next t) :
    t = bufferDone t.dst s ∧ (∀ a, a < n → Memory.get t.dst a = .val (outputByte i s.cfg.sbox key iv src a)) ∧
      ∀ a, n ≤ a → Memory.get t.dst a = Memory.get s.dst a := by
  obtain ⟨dst, hnext, hbytes, hbeyond⟩ := exec_runsTo hi hs
  cases h.symm.trans hnext
  exact ⟨rfl, hbytes, hbeyond⟩

/-- Accepted lengths and operands that hold some values are all a buffer command needs. -/
theorem exists_supplies (hl : s.Lengths n n) (hacc : lengthError n n i = none)
    (h : 0 < n → (isGamma i → s.iv.isVal = true) ∧ s.KeyWritten ∧ s.SourceWritten n) :
    ∃ key iv src, Supplies i s n key iv src := by
  obtain rfl | hpos := Nat.eq_zero_or_pos n
  · exact ⟨.replicate 8 0, 0, fun _ => 0, hl, hacc, fun hpos => absurd hpos (by decide),
      fun hpos => absurd hpos (by decide), fun _ ha => absurd ha (Nat.not_lt_zero _)⟩
  obtain ⟨hiv, hkey, hsrc⟩ := h hpos
  obtain ⟨key, hkey⟩ := exists_holdsKey hkey
  obtain ⟨src, hsrc⟩ := exists_holdsSource hsrc
  have hiv : ∃ iv, isGamma i → s.iv = .val iv := by
    by_cases hgamma : isGamma i
    · obtain ⟨iv, hiv⟩ := isVal_iff.mp (hiv hgamma)
      exact ⟨iv, fun _ => hiv⟩
    · exact ⟨0, fun h => absurd h hgamma⟩
  obtain ⟨iv, hiv⟩ := hiv
  exact ⟨key, iv, src, hl, hacc, fun _ => hkey, fun _ => hiv, hsrc⟩

theorem ecbCommand_success {d : Dir} (h : ecbCommand d s = .next t) (ht : t.status = 0) :
    ∃ n, s.Lengths n n ∧ n % 8 = 0 ∧ (0 < n → s.KeyWritten ∧ s.SourceWritten n) := by
  obtain ⟨n, m, hl, ⟨e, -, rfl⟩ | ⟨rfl, rfl, -⟩ | ⟨-, h8, rfl, key, dst, hkey, hdst, -⟩⟩ := ecbCommand_eq_next.mp h
  · exact absurd ht (statusWord_some_ne_zero e)
  · exact ⟨0, hl, rfl, fun hpos => absurd hpos (by decide)⟩
  refine ⟨n, hl, h8, fun _ => ⟨keyWritten_of_holdsKey hkey, fun a ha => ?_⟩⟩
  obtain ⟨v, hv, -⟩ := (ecbChunks_spec hdst).1 (a / 8) (by omega) (by omega)
  have hbyte := byteOf_memRead hv (by decide) (show a % 8 < 8 by omega)
  rw [chunkOffset_div_add_mod] at hbyte
  exact isVal_iff.mpr ⟨_, hbyte⟩

theorem gammaCommand_success (h : gammaCommand s = .next t) (ht : t.status = 0) :
    ∃ n, s.Lengths n n ∧ (0 < n → s.iv.isVal = true ∧ s.KeyWritten ∧ s.SourceWritten n) := by
  obtain ⟨n, m, hl, ⟨-, rfl⟩ | ⟨rfl, rfl, -⟩ | ⟨-, rfl, iv, key, p, dst, hiv, hkey, hp, hdst, -⟩⟩ :=
    gammaCommand_eq_next.mp h
  · exact absurd ht (statusWord_some_ne_zero .lengthMismatch)
  · exact ⟨0, hl, fun hpos => absurd hpos (by decide)⟩
  refine ⟨n, hl, fun _ => ⟨isVal_iff.mpr ⟨iv, hiv⟩, keyWritten_of_holdsKey hkey, fun a ha => ?_⟩⟩
  obtain ⟨b, hb, -⟩ := (gammaRun_spec hp hdst).1 a ha
  exact isVal_iff.mpr ⟨b, hb⟩

/-- A buffer command that succeeds was given what it needs. -/
theorem exists_supplies_of_success (hi : isBuffer i) (h : exec i s = .next t) (ht : t.status = 0) :
    ∃ n key iv src, Supplies i s n key iv src := by
  have ecb {d} (hi : isEcb i) (h : ecbCommand d s = .next t) : ∃ n key iv src, Supplies i s n key iv src := by
    obtain ⟨n, hl, h8, hops⟩ := ecbCommand_success h ht
    have hnot : ¬isGamma i := by obtain rfl | rfl := hi <;> simp [isGamma]
    exact ⟨n, exists_supplies hl ((lengthError_self_of_isEcb hi).mpr h8) fun hpos =>
      ⟨fun hgamma => absurd hgamma hnot, hops hpos⟩⟩
  have gam (hi : isGamma i) (h : gammaCommand s = .next t) : ∃ n key iv src, Supplies i s n key iv src := by
    obtain ⟨n, hl, hops⟩ := gammaCommand_success h ht
    exact ⟨n, exists_supplies hl (lengthError_self_of_isGamma hi n) fun hpos => ⟨fun _ => (hops hpos).1, (hops hpos).2⟩⟩
  obtain (rfl | rfl) | (rfl | rfl) := hi
  · exact ecb (.inl rfl) h
  · exact ecb (.inr rfl) h
  · exact gam (.inl rfl) h
  · exact gam (.inr rfl) h

/-- Another state with the same lengths and operands gives the command the same. -/
theorem Supplies.transfer {s' : State} (hs : Supplies i s n key iv src) (hl : s'.Lengths n n) (hkey : s'.key = s.key)
    (hiv : isGamma i → s'.iv = s.iv) (hsrc : ∀ a, a < n → Memory.get s'.src a = Memory.get s.src a) :
    Supplies i s' n key iv src where
  lengths := hl
  accepted := hs.accepted
  key := fun hpos => by
    rw [State.HoldsKey, hkey]
    exact hs.key hpos
  iv := fun hpos hgamma => (hiv hgamma).trans (hs.iv hpos hgamma)
  source := fun a ha => (hsrc a ha).trans (hs.source a ha)

theorem Supplies.length_eq {m : Nat} (hs : Supplies i s n key iv src) (hm : s.srcLen = .val m) : n = m :=
  Held.val.inj (hs.lengths.1.symm.trans hm)

theorem Supplies.byte_eq {a : Nat} {b : Byte} (hs : Supplies i s n key iv src) (ha : a < n)
    (hb : Memory.get s.src a = .val b) : src a = b :=
  Held.val.inj ((hs.source a ha).symm.trans hb)

end

end Sys2Proof.Machine

/-! PROOFS. When a command completes and when it is refused (70_reset_and_hazards.md R182, 60_exceptions.md R153, R154,
R160). -/

namespace Sys2Proof.Machine

/-! ### Completion -/

/-- The rows of R182 for the buffer commands in one form: lengths, and operands where the lengths are accepted. -/
theorem ready_iff_of_isBuffer {i : Instr} (hi : isBuffer i) (s : State) : Ready i s ↔ ∃ n m, s.Lengths n m ∧
    (lengthError n m i = none → 0 < n → (isGamma i → s.iv.isVal = true) ∧ s.KeyWritten ∧ s.SourceWritten n) := by
  obtain (rfl | rfl) | (rfl | rfl) := hi
  · simp [Ready, lengthError, validateEcb_eq_none, isGamma]
  · simp [Ready, lengthError, validateEcb_eq_none, isGamma]
  · simp [Ready, lengthError, validateGamma_eq_none, isGamma]
  · simp [Ready, lengthError, validateGamma_eq_none, isGamma]

theorem buffer_completes_iff_ready {i : Instr} (hi : isBuffer i) (s : State) : Completes (exec i s) ↔ Ready i s := by
  rw [ready_iff_of_isBuffer hi]
  constructor
  · rintro ⟨t, h⟩
    by_cases ht : t.status = 0
    · obtain ⟨n, key, iv, src, hs⟩ := exists_supplies_of_success hi h ht
      exact ⟨n, n, hs.lengths, fun _ hpos => ⟨fun hgamma => isVal_iff.mpr ⟨iv, hs.iv hpos hgamma⟩,
        keyWritten_of_holdsKey (hs.key hpos), sourceWritten_of_holdsSource hs.source⟩⟩
    · obtain ⟨n, m, e, hl, he, -⟩ := lengthError_of_status_ne_zero h ht
      exact ⟨n, m, hl, fun hnone => absurd (hnone.symm.trans he) (by simp)⟩
  · rintro ⟨n, m, hl, hops⟩
    cases he : lengthError n m i with
    | some e => exact ⟨_, exec_of_lengthError hl he⟩
    | none =>
      obtain rfl := eq_of_lengthError_eq_none hi he
      obtain ⟨key, iv, src, hs⟩ := exists_supplies hl he (hops he)
      obtain ⟨dst, hnext, -⟩ := exec_runsTo hi hs
      exact ⟨_, hnext⟩

theorem execRound_completes_iff (s : State) : Completes (execRound s) ↔ Ready .round s := by
  constructor
  · rintro ⟨t, h⟩
    obtain ⟨l, r, k, hl, hr, hk, -⟩ := execRound_eq_next.mp h
    exact ⟨isVal_iff.mpr ⟨l, hl⟩, isVal_iff.mpr ⟨r, hr⟩, isVal_iff.mpr ⟨k, hk⟩⟩
  · rintro ⟨hl, hr, hk⟩
    obtain ⟨l, hl⟩ := isVal_iff.mp hl
    obtain ⟨r, hr⟩ := isVal_iff.mp hr
    obtain ⟨k, hk⟩ := isVal_iff.mp hk
    exact ⟨_, execRound_eq_next.mpr ⟨l, r, k, hl, hr, hk, rfl⟩⟩

theorem blockCommand_completes_iff (d : Dir) (s : State) :
    Completes (blockCommand d s) ↔ s.bin.isVal = true ∧ s.KeyWritten := by
  constructor
  · rintro ⟨t, h⟩
    obtain ⟨b, key, hb, hkey, -⟩ := blockCommand_eq_next.mp h
    exact ⟨isVal_iff.mpr ⟨b, hb⟩, keyWritten_of_holdsKey hkey⟩
  · rintro ⟨hb, hkey⟩
    obtain ⟨b, hb⟩ := isVal_iff.mp hb
    obtain ⟨key, hkey⟩ := exists_holdsKey hkey
    exact ⟨_, blockCommand_eq_next.mpr ⟨b, key, hb, hkey, rfl⟩⟩

/-- Settles O42: each row of R182 is the condition of one of the three kinds of command. -/
theorem commandsCompleteExactlyWhenReady : Obligations.CommandsCompleteExactlyWhenReady := by
  intro i s
  cases i with
  | round => exact execRound_completes_iff s
  | encblk => exact blockCommand_completes_iff .enc s
  | decblk => exact blockCommand_completes_iff .dec s
  | encecb => exact buffer_completes_iff_ready (.inl (.inl rfl)) s
  | dececb => exact buffer_completes_iff_ready (.inl (.inr rfl)) s
  | encgam => exact buffer_completes_iff_ready (.inr (.inl rfl)) s
  | decgam => exact buffer_completes_iff_ready (.inr (.inr rfl)) s

@[simp] theorem isVal_orZero {α : Type} (zero : α) (h : Held α) : (orZero zero h).isVal = true := by
  cases h <;> rfl

/-- Every command, with the minimal set-up, completes from reset: buffers are empty then. -/
theorem ready_minimalSetup_reset (i : Instr) : Ready i (minimalSetup i State.reset) := by
  have hkey (k : Fin 8) : ((State.reset.key.map (orZero 0))[k]).isVal = true := by simp
  cases i with
  | round => exact ⟨rfl, rfl, rfl⟩
  | encblk | decblk => exact ⟨rfl, hkey⟩
  | encecb | dececb => exact ⟨0, 0, ⟨rfl, rfl⟩, fun _ _ hpos => absurd hpos (by decide)⟩
  | encgam | decgam => exact ⟨0, 0, ⟨rfl, rfl⟩, fun _ hpos => absurd hpos (by decide)⟩

/-- A placed word is the host's next action, after the set-up of its command. -/
theorem step_withFetchWord {w : Word} {i : Instr} (hd : decode w = .ok i) (s : State) :
    step (s.withFetchWord 32 w.toNat) = exec i (minimalSetup i s) := by
  have hplaced : s.withFetchWord 32 w.toNat = withPending (.wr 0 w.toNat :: s.pending) (minimalSetup i s) := by
    rw [State.withFetchWord, Nat.mod_eq_of_lt w.isLt, issueWord, BitVec.ofNat_toNat, BitVec.setWidth_eq, hd]
    rfl
  have hback : withPending s.pending (minimalSetup i s) = minimalSetup i s := by cases i <;> rfl
  rw [hplaced, step_of_cmd_write (withPending_pending ..), runCommandWord_of_decode hd]
  exact congrArg (exec i) hback

/-- Settles O6. -/
theorem placedWordRunsItsCommand : Obligations.PlacedWordRunsItsCommand := by
  refine ⟨fun s w i hd => step_withFetchWord hd s, fun i => ?_⟩
  rw [step_withFetchWord (decode_encode i)]
  exact (commandsCompleteExactlyWhenReady i _).mpr (ready_minimalSetup_reset i)

/-! ### Refusal -/

theorem exec_ne_fault (i : Instr) (s : State) (e : Fault) : exec i s ≠ .fault e := by
  cases i with
  | round => exact execRound_ne_fault s e
  | encblk | decblk => exact blockCommand_ne_fault _ s e
  | encecb | dececb => exact ecbCommand_ne_fault _ s e
  | encgam | decgam => exact gammaCommand_ne_fault s e

/-- A command is refused only for an operand that holds no value, and the refusal names it. -/
theorem exec_eq_refused {i : Instr} {s : State} {e : Refusal} (h : exec i s = .refused e) :
    (∃ reg ∈ readRegs i, e = .noValue reg ∧ getReg reg s = .novalue) ∨
    (isBuffer i ∧ ∃ n a, e = .noValueByte .src a ∧ s.srcLen = .val n ∧ a < n ∧ Memory.get s.src a = .novalue) := by
  cases i with
  | round => exact .inl (execRound_eq_refused h)
  | encblk | decblk => exact .inl (blockCommand_eq_refused h)
  | encecb => exact (ecbCommand_eq_refused h).imp_right fun hbyte => ⟨.inl (.inl rfl), hbyte⟩
  | dececb => exact (ecbCommand_eq_refused h).imp_right fun hbyte => ⟨.inl (.inr rfl), hbyte⟩
  | encgam => exact (gammaCommand_eq_refused h).imp_right fun hbyte => ⟨.inr (.inl rfl), hbyte⟩
  | decgam => exact (gammaCommand_eq_refused h).imp_right fun hbyte => ⟨.inr (.inr rfl), hbyte⟩

/-- Settles O43. -/
theorem commandsRefuseOnlyNovalue : Obligations.CommandsRefuseOnlyNovalue := fun i s =>
  ⟨exec_ne_fault i s, fun _ => exec_eq_refused⟩

/-- A command that is not ready is refused: it neither completes nor faults. -/
theorem exists_refusal_of_not_ready {i : Instr} {s : State} (h : ¬Ready i s) : ∃ e, exec i s = .refused e := by
  cases ho : exec i s with
  | next t => exact absurd ((commandsCompleteExactlyWhenReady i s).mp ⟨t, ho⟩) h
  | fault e => exact absurd ho (exec_ne_fault i s e)
  | refused e => exact ⟨e, rfl⟩

/-- A command without a buffer that is not ready is refused for one of its registers. -/
theorem refused_for_register {i : Instr} {s : State} (hi : ¬isBuffer i) (h : ¬Ready i s) :
    ∃ reg ∈ readRegs i, getReg reg s = .novalue ∧ exec i s = .refused (.noValue reg) := by
  obtain ⟨e, he⟩ := exists_refusal_of_not_ready h
  obtain ⟨reg, hreg, rfl, hnone⟩ | ⟨hbuf, -⟩ := exec_eq_refused he
  · exact ⟨reg, hreg, hnone, he⟩
  · exact absurd hbuf hi

theorem exec_of_srcLen_novalue {i : Instr} (hi : isBuffer i) {s : State} (h : s.srcLen = .novalue) :
    exec i s = .refused (.noValue .srcLen) := by
  obtain (rfl | rfl) | (rfl | rfl) := hi
  · simp [exec, execEncecb, ecbCommand, h]
  · simp [exec, execDececb, ecbCommand, h]
  · simp [exec, execEncgam, gammaCommand, h]
  · simp [exec, execDecgam, gammaCommand, h]

theorem exec_of_dstLen_novalue {i : Instr} (hi : isBuffer i) {s : State} {n : Nat} (hn : s.srcLen = .val n)
    (h : s.dstLen = .novalue) : exec i s = .refused (.noValue .dstLen) := by
  obtain (rfl | rfl) | (rfl | rfl) := hi
  · simp [exec, execEncecb, ecbCommand, hn, h]
  · simp [exec, execDececb, ecbCommand, hn, h]
  · simp [exec, execEncgam, gammaCommand, hn, h]
  · simp [exec, execDecgam, gammaCommand, hn, h]

/-- A buffer command without a length is refused for one of the two (log entry 16: SRC_LEN first). -/
theorem refused_for_length {i : Instr} (hi : isBuffer i) {s : State} (h : s.srcLen = .novalue ∨ s.dstLen = .novalue) :
    ∃ reg ∈ [Reg.srcLen, Reg.dstLen], getReg reg s = .novalue ∧ exec i s = .refused (.noValue reg) := by
  cases hn : s.srcLen with
  | novalue => exact ⟨.srcLen, by simp, hn, exec_of_srcLen_novalue hi hn⟩
  | val n =>
    have hdst : s.dstLen = .novalue := h.resolve_left (by simp [hn])
    exact ⟨.dstLen, by simp, hdst, exec_of_dstLen_novalue hi hn hdst⟩

theorem not_keyWritten {s : State} (h : ∃ k : Fin 8, s.key[k] = .novalue) : ¬s.KeyWritten := by
  obtain ⟨k, hk⟩ := h
  intro hkey
  cases (hkey k).symm.trans (isVal_eq_false.mpr hk)

theorem not_sourceWritten {s : State} {n : Nat} (h : ∃ a, a < n ∧ Memory.get s.src a = .novalue) :
    ¬s.SourceWritten n := by
  obtain ⟨a, ha, hnone⟩ := h
  intro hsrc
  cases (hsrc a ha).symm.trans (isVal_eq_false.mpr hnone)

/-- A buffer command with accepted lengths above 0 is refused when an operand of its row holds no value. -/
theorem exists_refusal_of_operand {i : Instr} (hi : isBuffer i) {s : State} {n : Nat} (hl : s.Lengths n n)
    (hacc : lengthError n n i = none) (hpos : 0 < n)
    (h : (isGamma i ∧ s.iv = .novalue) ∨ (∃ k : Fin 8, s.key[k] = .novalue) ∨
      ∃ a, a < n ∧ Memory.get s.src a = .novalue) :
    ∃ e, exec i s = .refused e := by
  refine exists_refusal_of_not_ready fun hready => ?_
  obtain ⟨n', m', hl', hops⟩ := (ready_iff_of_isBuffer hi s).mp hready
  obtain ⟨rfl, rfl⟩ := lengths_unique hl hl'
  obtain ⟨hiv, hkey, hsrc⟩ := hops hacc hpos
  obtain ⟨hgamma, hnone⟩ | hnone | hnone := h
  · exact absurd (hiv hgamma) (by simp [hnone])
  · exact not_keyWritten hnone hkey
  · exact not_sourceWritten hnone hsrc

/-! ### Lengths that are reported -/

theorem isBuffer_of_mem {i : Instr} (hi : i ∈ [Instr.encecb, .dececb, .encgam, .decgam]) : isBuffer i := by
  simpa [isBuffer, isEcb, isGamma, or_assoc] using hi

theorem isEcb_of_mem {i : Instr} (hi : i ∈ [Instr.encecb, .dececb]) : isEcb i := by
  simpa [isEcb] using hi

theorem isGamma_of_mem {i : Instr} (hi : i ∈ [Instr.encgam, .decgam]) : isGamma i := by
  simpa [isGamma] using hi

/-- A buffer command that completes has found two lengths. -/
theorem exists_lengths {i : Instr} (hi : isBuffer i) {s t : State} (h : exec i s = .next t) : ∃ n m, s.Lengths n m := by
  obtain ⟨n, m, hl, -⟩ := (ready_iff_of_isBuffer hi s).mp ((commandsCompleteExactlyWhenReady i s).mp ⟨t, h⟩)
  exact ⟨n, m, hl⟩

theorem statusWord_injective : Function.Injective statusWord := by
  intro x y h
  obtain _ | _ | _ := x <;> obtain _ | _ | _ := y <;> simp_all [statusWord]

/-- Settles O38: STATUS is the code of the validation, and the codes are different. -/
theorem unalignedLengthIsReported : Obligations.UnalignedLengthIsReported := by
  refine ⟨fun i hi s n m hl h8 => ?_, fun i hi s t n hn h => ?_, fun i hi s t h => ?_⟩
  · have he : lengthError n m i = some .lengthNotBlockAligned :=
      (lengthError_of_isEcb (isEcb_of_mem hi) n m).trans (validateEcb_eq_some.mpr (.inl ⟨h8, rfl⟩))
    exact exec_of_lengthError hl he
  · obtain ⟨n', m, hl⟩ := exists_lengths (.inl (isEcb_of_mem hi)) h
    obtain rfl := Held.val.inj (hn.symm.trans hl.1)
    rw [status_eq_of_lengths hl h, statusWord_injective.eq_iff, lengthError_of_isEcb (isEcb_of_mem hi),
      validateEcb_eq_some]
    simp
  · obtain ⟨n, m, hl⟩ := exists_lengths (.inr (isGamma_of_mem hi)) h
    rw [status_eq_of_lengths hl h, statusWord_injective.ne_iff, lengthError_of_isGamma (isGamma_of_mem hi), ne_eq,
      validateGamma_eq_some]
    simp

/-- Settles O39. -/
theorem lengthMismatchIsReported : Obligations.LengthMismatchIsReported := by
  have hcode : (2 : Word) = statusWord (some .lengthMismatch) := rfl
  refine ⟨fun i hi s n m hl hne => ?_, fun i hi s n m hl h8 hne => ?_, fun i hi s t n m hl h => ?_,
    fun i hi s t n m hl h => ?_⟩
  · have he : lengthError n m i = some .lengthMismatch :=
      (lengthError_of_isGamma (isGamma_of_mem hi) n m).trans (validateGamma_eq_some.mpr ⟨hne, rfl⟩)
    exact exec_of_lengthError hl he
  · have he : lengthError n m i = some .lengthMismatch :=
      (lengthError_of_isEcb (isEcb_of_mem hi) n m).trans (validateEcb_eq_some.mpr (.inr ⟨h8, hne, rfl⟩))
    exact exec_of_lengthError hl he
  · rw [status_eq_of_lengths hl h, hcode, statusWord_injective.eq_iff, lengthError_of_isGamma (isGamma_of_mem hi),
      validateGamma_eq_some]
    simp
  · rw [status_eq_of_lengths hl h, hcode, statusWord_injective.eq_iff, lengthError_of_isEcb (isEcb_of_mem hi),
      validateEcb_eq_some]
    simp

/-- Settles O37: the end of a run on no byte is `bufferDone` with DST as it was. -/
theorem emptyBufferNeedsNoOperands : Obligations.EmptyBufferNeedsNoOperands := by
  intro i hi s hl
  obtain (rfl | rfl) | (rfl | rfl) := isBuffer_of_mem hi
  · exact ecbCommand_of_empty hl .enc
  · exact ecbCommand_of_empty hl .dec
  · exact gammaCommand_of_empty hl
  · exact gammaCommand_of_empty hl

end Sys2Proof.Machine

/-! PROOFS. ROUND, ENCBLK and DECBLK (41_round.md R92, 43_block.md R111 and R112). -/

namespace Sys2Proof.Machine

/-! ### Their results -/

/-- R92: ROUND from L, R and RKEY that hold values. -/
theorem execRound_of_val {s : State} {l r k : Word} (hl : s.l = .val l) (hr : s.r = .val r) (hk : s.rkey = .val k) :
    exec .round s = .next (roundDone (round s.cfg.sbox (l, r) k) s) :=
  execRound_eq_next.mpr ⟨l, r, k, hl, hr, hk, rfl⟩

/-- Settles O23: the completing state is `roundDone`'s; a register without a value leaves the command not ready. -/
theorem roundCommandResult : Obligations.RoundCommandResult := by
  refine ⟨fun s l r k => execRound_of_val, fun s hnone => refused_for_register (not_isBuffer (.inl rfl)) ?_⟩
  rintro ⟨hl, hr, hk⟩
  obtain h | h | h := hnone
  · exact absurd hl (by simp [h])
  · exact absurd hr (by simp [h])
  · exact absurd hk (by simp [h])

/-- What the pairs of a block command and its direction have in common. -/
theorem exec_of_mem_blockInstrs {i : Instr} {d : Dir} (hi : (i, d) ∈ blockInstrs) (s : State) :
    exec i s = blockCommand d s ∧ (i = .encblk ∨ i = .decblk) := by
  simp only [blockInstrs, List.mem_cons, Prod.mk.injEq, List.not_mem_nil, or_false] at hi
  obtain ⟨rfl, rfl⟩ | ⟨rfl, rfl⟩ := hi
  · exact ⟨rfl, .inl rfl⟩
  · exact ⟨rfl, .inr rfl⟩

/-- R111: a block command from BIN and K that hold values. -/
theorem blockCommand_of_val {d : Dir} {s : State} {b : Block} {key : Key} (hb : s.bin = .val b)
    (hkey : s.HoldsKey key) : blockCommand d s = .next (blockDone (block s.cfg.sbox key d b) s) :=
  blockCommand_eq_next.mpr ⟨b, key, hb, hkey, rfl⟩

/-- The 32 rounds, each with the key word that the schedule selects (R100, R111). -/
theorem runRounds_roundKeys (sb : Sbox) (key : Key) (d : Dir) (p : Halves) :
    runRounds sb (roundKeys d key) p = (List.finRange 32).foldl (fun q j => round sb q key[ksel d j]) p := by
  rw [runRounds, roundKeys, List.foldl_map]

/-- A block command without BIN or a word of K is refused for one of them. -/
theorem blockCommand_refused {i : Instr} (hi : i = .encblk ∨ i = .decblk) {s : State}
    (hnone : s.bin = .novalue ∨ ∃ k : Fin 8, s.key[k] = .novalue) :
    ∃ reg ∈ readRegs i, getReg reg s = .novalue ∧ exec i s = .refused (.noValue reg) := by
  refine refused_for_register (not_isBuffer (.inr hi)) fun hready => ?_
  have hready : s.bin.isVal = true ∧ s.KeyWritten := by obtain rfl | rfl := hi <;> exact hready
  obtain h | h := hnone
  · exact absurd hready.1 (by simp [h])
  · exact not_keyWritten h hready.2

/-- Settles O24: the completing state is `blockDone`'s, with the rounds as a fold over the schedule; the examples are
evaluated in the kernel. -/
theorem blockCommandResult : Obligations.BlockCommandResult := by
  refine ⟨fun i d hi s b key hb hkey => ?_, fun i d hi s hnone => ?_, by decide +kernel⟩
  · rw [(exec_of_mem_blockInstrs hi s).1, blockCommand_of_val hb hkey, block, runRounds_roundKeys]
    rfl
  · exact blockCommand_refused (exec_of_mem_blockInstrs hi s).2 hnone

/-! ### Thirty-two ROUND commands -/

/-- ROUND commands with one key word after the other in RKEY complete and run the rounds. -/
theorem round_commands_run_rounds (sb : Sbox) (ks : List Word) {u : State} {p : Halves} (hsb : u.cfg.sbox = sb)
    (hl : u.l = .val p.1) (hr : u.r = .val p.2) :
    ∃ t, ks.foldl (fun o k => andThen o fun v => exec .round { v with rkey := .val k }) (.next u) = .next t ∧
      t.l = .val (runRounds sb ks p).1 ∧ t.r = .val (runRounds sb ks p).2 := by
  induction ks generalizing u p with
  | nil => exact ⟨u, rfl, hl, hr⟩
  | cons k ks ih =>
    have hround := execRound_of_val (s := { u with rkey := .val k }) hl hr rfl
    rw [List.foldl_cons, andThen_next, hround]
    subst hsb
    exact ih rfl rfl rfl

/-- Settles O25: ROUND by ROUND, L and R are the halves of the 32 rounds, and the block is their reassembly. -/
theorem roundCommandsComposeToABlock : Obligations.RoundCommandsComposeToABlock := by
  intro s key d b
  obtain ⟨t, ht, hl, hr⟩ := round_commands_run_rounds s.cfg.sbox (roundKeys d key) (p := splitBlock b)
    (u := { s with l := .val (lo32 b), r := .val (hi32 b) }) rfl rfl rfl
  rw [roundKeys, List.foldl_map] at ht
  exact ⟨t, _, _, ht, hl, hr, rfl⟩

end Sys2Proof.Machine

/-! PROOFS. The ECB commands (44_ecb.md R120 to R123). -/

namespace Sys2Proof.Machine

theorem isEcb_of_mem_ecbInstrs {i : Instr} {d : Dir} (hi : (i, d) ∈ ecbInstrs) : isEcb i := by
  simp only [ecbInstrs, List.mem_cons, Prod.mk.injEq, List.not_mem_nil, or_false] at hi
  obtain ⟨rfl, -⟩ | ⟨rfl, -⟩ := hi
  · exact .inl rfl
  · exact .inr rfl

theorem not_isGamma_of_isEcb {i : Instr} (hi : isEcb i) : ¬isGamma i := by
  obtain rfl | rfl := hi <;> simp [isGamma]

/-- What an ECB command finds on an accepted buffer; IV is none of it. -/
theorem supplies_of_isEcb {i : Instr} (hi : isEcb i) {s : State} {n : Nat} {key : Key} {src : Nat → Byte}
    (hl : s.Lengths n n) (h8 : n % 8 = 0) (hkey : s.HoldsKey key) (hsrc : s.HoldsSource n src) :
    Supplies i s n key 0 src where
  lengths := hl
  accepted := (lengthError_self_of_isEcb hi).mpr h8
  key := fun _ => hkey
  iv := fun _ hgamma => absurd hgamma (not_isGamma_of_isEcb hi)
  source := hsrc

/-- Settles O26: the run is known byte by byte; a chunk's bytes are those of the block operation. -/
theorem ecbCommandResult : Obligations.EcbCommandResult := by
  refine ⟨fun i d hi s n key src hl h8 hkey hsrc => ?_, fun i d hi s hnone => ?_, fun i d hi s n hl h8 hpos hnone => ?_⟩
  · have hecb := isEcb_of_mem_ecbInstrs hi
    obtain ⟨dst, hnext, hbytes, hbeyond⟩ := exec_runsTo (.inl hecb) (supplies_of_isEcb hecb hl h8 hkey hsrc)
    refine ⟨dst, hnext, fun c k hc hk => ?_, hbeyond⟩
    rw [hbytes _ (by simp only [chunkOffset, chunkBytes]; omega), outputByte_of_mem_ecbInstrs hi,
      ecbByte_chunkOffset _ _ _ _ _ hk]
  · exact refused_for_length (.inl (isEcb_of_mem_ecbInstrs hi)) hnone
  · have hecb := isEcb_of_mem_ecbInstrs hi
    exact exists_refusal_of_operand (.inl hecb) hl ((lengthError_self_of_isEcb hecb).mpr h8) hpos (.inr hnone)

/-- R122: an ECB command does not read IV and leaves it. -/
theorem ecbCommand_with_iv {d : Dir} {s t : State} (h : ecbCommand d s = .next t) (x : Held Word) :
    ecbCommand d { s with iv := x } = .next { t with iv := x } := by
  obtain ⟨n, m, hl, hcase⟩ := ecbCommand_eq_next.mp h
  refine ecbCommand_eq_next.mpr ⟨n, m, hl, ?_⟩
  obtain ⟨e, he, rfl⟩ | ⟨hn, hm, rfl⟩ | ⟨hpos, h8, hnm, key, dst, hkey, hdst, rfl⟩ := hcase
  · exact .inl ⟨e, he, rfl⟩
  · exact .inr (.inl ⟨hn, hm, rfl⟩)
  · exact .inr (.inr ⟨hpos, h8, hnm, key, dst, hkey, hdst, rfl⟩)

/-- Settles O27: a chunk of the output depends on the source's chunk alone, not on its position. -/
theorem equalChunksGiveEqualChunks : Obligations.EqualChunksGiveEqualChunks := by
  intro i d hi s t n c c' h ht hn hc hc' hsame
  have hecb := isEcb_of_mem_ecbInstrs hi
  refine ⟨fun k hk => ?_, fun x => ?_⟩
  · obtain ⟨n', key, iv, src, hs⟩ := exists_supplies_of_success (.inl hecb) h ht
    obtain rfl := hs.length_eq hn
    obtain ⟨-, hbytes, -⟩ := result_of_supplies (.inl hecb) hs h
    have hin {c k : Nat} (hc : c < n' / 8) (hk : k < 8) : chunkOffset c + k < n' := by
      simp only [chunkOffset, chunkBytes]
      omega
    have hchunk : chunkValue src c = chunkValue src c' := chunkValue_congr fun k hk =>
      hs.byte_eq (hin hc hk) ((hsame k hk).trans (hs.source _ (hin hc' hk)))
    rw [hbytes _ (hin hc hk), hbytes _ (hin hc' hk), outputByte_of_mem_ecbInstrs hi, outputByte_of_mem_ecbInstrs hi,
      ecbByte_chunkOffset _ _ _ _ _ hk, ecbByte_chunkOffset _ _ _ _ _ hk, hchunk]
  · obtain rfl | rfl := hecb
    · exact ecbCommand_with_iv h x
    · exact ecbCommand_with_iv h x

/-! ### A second command on what the first one wrote -/

/-- If the output of j undoes the output of i, and j accepts what i accepts, then j on what i wrote gives the source. -/
theorem buffer_round_trip {i j : Instr} (hi : isBuffer i) (hj : isBuffer j)
    (hgamma : isGamma j → isGamma i) (haccept : ∀ n, lengthError n n i = none → lengthError n n j = none)
    (hinv : ∀ sb key iv src a, outputByte j sb key iv (outputByte i sb key iv src) a = src a)
    {s t : State} (h : exec i s = .next t) (ht : t.status = 0) :
    ∃ u, exec j { t with src := t.dst } = .next u ∧ u.status = 0 ∧
      ∀ n a, s.srcLen = .val n → a < n → Memory.get u.dst a = Memory.get s.src a := by
  obtain ⟨n, key, iv, src, hs⟩ := exists_supplies_of_success hi h ht
  obtain ⟨htdone, hbytes, -⟩ := result_of_supplies hi hs h
  have hkeep := exec_keepsOperands h
  have hs' : Supplies j { t with src := t.dst } n key iv (outputByte i s.cfg.sbox key iv src) := {
    lengths := ⟨hkeep.srcLen.trans hs.lengths.1, hkeep.dstLen.trans hs.lengths.2⟩
    accepted := haccept n hs.accepted
    key := fun hpos => by
      rw [State.HoldsKey, hkeep.key]
      exact hs.key hpos
    iv := fun hpos hj => hkeep.iv.trans (hs.iv hpos (hgamma hj))
    source := hbytes }
  obtain ⟨dst, hnext, hback, -⟩ := exec_runsTo hj hs'
  refine ⟨_, hnext, rfl, fun n' a hn ha => ?_⟩
  obtain rfl := hs.length_eq hn
  rw [bufferDone_dst, hback a ha, hs.source a ha, hkeep.cfg, hinv]

/-- Settles O28: the block operations of the two directions undo each other. -/
theorem ecbDirectionsInvertEachOther : Obligations.EcbDirectionsInvertEachOther := by
  intro i j hij s t h ht
  have haccept {i j : Instr} (hi : isEcb i) (hj : isEcb j) (n : Nat) (h : lengthError n n i = none) :
      lengthError n n j = none := (lengthError_self_of_isEcb hj).mpr ((lengthError_self_of_isEcb hi).mp h)
  simp only [List.mem_cons, Prod.mk.injEq, List.not_mem_nil, or_false] at hij
  obtain ⟨rfl, rfl⟩ | ⟨rfl, rfl⟩ := hij
  · exact buffer_round_trip (.inl (.inl rfl)) (.inl (.inr rfl)) (fun hg => absurd hg (not_isGamma_of_isEcb (.inr rfl)))
      (haccept (.inl rfl) (.inr rfl)) (fun sb key _ src a => ecbByte_ecbByte (block_dec_block_enc sb key) src a) h ht
  · exact buffer_round_trip (.inl (.inr rfl)) (.inl (.inl rfl)) (fun hg => absurd hg (not_isGamma_of_isEcb (.inl rfl)))
      (haccept (.inr rfl) (.inl rfl)) (fun sb key _ src a => ecbByte_ecbByte (block_enc_block_dec sb key) src a) h ht

end Sys2Proof.Machine

/-! PROOFS. The gamma commands (45_gamma.md R130 to R139). -/

namespace Sys2Proof.Machine

/-- What a gamma command finds on an accepted buffer. -/
theorem supplies_of_isGamma {i : Instr} (hi : isGamma i) {s : State} {n : Nat} {iv : Word} {key : Key}
    {src : Nat → Byte} (hl : s.Lengths n n) (hiv : s.iv = .val iv) (hkey : s.HoldsKey key)
    (hsrc : s.HoldsSource n src) : Supplies i s n key iv src where
  lengths := hl
  accepted := lengthError_self_of_isGamma hi n
  key := fun _ => hkey
  iv := fun _ _ => hiv
  source := hsrc

/-- Settles O29. -/
theorem gammaCommandClosedForm : Obligations.GammaCommandClosedForm := by
  refine ⟨fun i hi s n iv key src hl hiv hkey hsrc => ?_, fun i hi s hnone => ?_, fun i hi s n hl hpos hnone => ?_⟩
  · have hgamma := isGamma_of_mem hi
    obtain ⟨dst, hnext, hbytes, hbeyond⟩ := exec_runsTo (.inr hgamma) (supplies_of_isGamma hgamma hl hiv hkey hsrc)
    refine ⟨dst, hnext, fun a ha => ?_, hbeyond⟩
    rw [hbytes a ha, outputByte_of_isGamma hgamma]
  · exact refused_for_length (.inr (isGamma_of_mem hi)) hnone
  · have hgamma := isGamma_of_mem hi
    exact exists_refusal_of_operand (.inr hgamma) hl (lengthError_self_of_isGamma hgamma n) hpos
      (hnone.imp_left fun hiv => ⟨hgamma, hiv⟩)

/-- The nine source bytes of R131's example. -/
def exampleSource (a : Nat) : Byte :=
  [0x3C, 0xB9, 0xB7, 0x97, 0x0C, 0x11, 0x98, 0x4E, 0x69].getD a 0

/-- R131's example in the closed form. -/
theorem gamma_example : (List.range 9).map (outputByte .decgam defaultSbox vectorKey 0x12345678 exampleSource) =
    [0x59, 0x0A, 0x13, 0x3C, 0x6B, 0xF0, 0xDE, 0x92, 0x20] := by
  decide +kernel

/-- Settles O30: the two commands are one definition; the example is the closed form's. -/
theorem gammaCommandsAreOneFunction : Obligations.GammaCommandsAreOneFunction := by
  refine ⟨fun _ => rfl, rfl, fun s hsb hkey hiv hl hread => ?_⟩
  obtain ⟨-, hbytes⟩ := readBytes_eq_next.mp hread
  have hsrc : s.HoldsSource 9 exampleSource := fun a ha => by
    have hbyte := hbytes a ha
    rw [Nat.zero_add] at hbyte
    rw [hbyte, exampleSource, List.getD_eq_getElem _ _ ha]
  obtain ⟨dst, hnext, hout, -⟩ := exec_runsTo (i := .decgam) (.inr (.inr rfl))
    (supplies_of_isGamma (.inr rfl) hl hiv hkey hsrc)
  rw [hsb] at hout
  have hback : readBytes .dst dst 0 9 =
      .next ((List.range 9).map (outputByte .decgam defaultSbox vectorKey 0x12345678 exampleSource)) :=
    readBytes_eq_map_range fun k hk => by
      rw [Nat.zero_add]
      exact hout k hk
  exact ⟨_, hnext, hback.trans (congrArg Host.Outcome.next gamma_example)⟩

/-- Settles O31: a keystream byte xored twice is gone. -/
theorem gammaIsSelfInverse : Obligations.GammaIsSelfInverse := by
  intro i hi j hj s t h ht
  have hi := isGamma_of_mem hi
  have hj := isGamma_of_mem hj
  refine buffer_round_trip (.inr hi) (.inr hj) (fun _ => hi) (fun n _ => lengthError_self_of_isGamma hj n) ?_ h ht
  intro sb key iv src a
  rw [outputByte_of_isGamma hj, outputByte_of_isGamma hi, BitVec.xor_assoc, BitVec.xor_self, BitVec.xor_zero]

/-- A gamma command that succeeds, at an offset below the length: the source byte xored with a keystream byte that
depends on the table, K and IV alone. -/
theorem gamma_byte {i : Instr} (hi : isGamma i) {s t : State} {n a : Nat} {key : Key} {iv : Word} {b : Byte}
    (h : exec i s = .next t) (ht : t.status = 0) (hn : s.srcLen = .val n) (ha : a < n) (hkey : s.HoldsKey key)
    (hiv : s.iv = .val iv) (hb : Memory.get s.src a = .val b) :
    Memory.get t.dst a = .val (b ^^^ keystreamByte s.cfg.sbox key iv a) := by
  obtain ⟨n', key', iv', src, hs⟩ := exists_supplies_of_success (.inr hi) h ht
  obtain rfl := hs.length_eq hn
  have hpos : 0 < n' := Nat.zero_lt_of_lt ha
  obtain rfl := holdsKey_unique hkey (hs.key hpos)
  obtain rfl := Held.val.inj (hiv.symm.trans (hs.iv hpos hi))
  obtain ⟨-, hbytes, -⟩ := result_of_supplies (.inr hi) hs h
  rw [hbytes a ha, outputByte_of_isGamma hi, hs.byte_eq ha hb]

/-- Settles O32: both outputs are a source byte xored with the same keystream byte. -/
theorem gammaIsMalleable : Obligations.GammaIsMalleable := by
  intro i hi s t t' src' n a b b' c c' h h' ht hn ha hb hb' hc hc'
  have hi := isGamma_of_mem hi
  obtain ⟨n', key, iv, src, hs⟩ := exists_supplies_of_success (.inr hi) h ht
  obtain rfl := hs.length_eq hn
  have hpos : 0 < n' := Nat.zero_lt_of_lt ha
  have hl' : State.Lengths { s with src := src' } n' n' := hs.lengths
  have ht' : t'.status = 0 := by
    rw [status_eq_of_lengths hl' h', hs.accepted]
    rfl
  have hout := gamma_byte hi h ht hn ha (hs.key hpos) (hs.iv hpos hi) hb
  have hout' := gamma_byte hi h' ht' hn ha (hs.key hpos) (hs.iv hpos hi) hb'
  obtain rfl := Held.val.inj (hc.symm.trans hout)
  obtain rfl := Held.val.inj (hc'.symm.trans hout')
  rw [BitVec.xor_comm b', BitVec.xor_assoc, ← BitVec.xor_assoc _ _ b', BitVec.xor_self, BitVec.zero_xor]

/-- Settles O33: the closed form does not mention the length. -/
theorem gammaOutputsArePrefixes : Obligations.GammaOutputsArePrefixes := by
  intro i hi s t n m h ht hn hm
  have hi := isGamma_of_mem hi
  obtain ⟨n', key, iv, src, hs⟩ := exists_supplies_of_success (.inr hi) h ht
  obtain rfl := hs.length_eq hn
  obtain ⟨-, hbytes, -⟩ := result_of_supplies (.inr hi) hs h
  have hs' : Supplies i { s with srcLen := .val m, dstLen := .val m } m key iv src := {
    lengths := ⟨rfl, rfl⟩
    accepted := lengthError_self_of_isGamma hi m
    key := fun hpos => hs.key (by omega)
    iv := fun hpos => hs.iv (by omega)
    source := fun a ha => hs.source a (by omega) }
  obtain ⟨dst, hnext, hbytes', -⟩ := exec_runsTo (.inr hi) hs'
  exact ⟨_, hnext, rfl, fun a ha => (hbytes' a ha).trans (hbytes a (by omega)).symm⟩

/-- Settles O34: ENCBLK of the counter is the keystream word by definition, and the gamma command's byte is known. -/
theorem encblkMakesAGammaShard : Obligations.EncblkMakesAGammaShard := by
  intro s key iv c hkey
  have hblock := blockCommand_of_val (d := .enc) (s := { s with bin := .val (cat64 iv 0 + BitVec.ofNat 64 c) }) rfl hkey
  refine ⟨_, keystreamWord s.cfg.sbox key iv c, hblock, rfl, ?_⟩
  rintro i hi u v n a b hsb hukey huiv h hv hn ha rfl hb
  rw [gamma_byte (isGamma_of_mem hi) h hv hn ha hukey huiv hb, keystreamByte, hsb]

end Sys2Proof.Machine

/-! PROOFS. What commands read (10_state.md R30, 20_memory.md R48, 30_encoding.md R62). -/

namespace Sys2Proof.Machine

/-- Settles O46: the bytes below the length are those of the output, which names the operands alone; an error writes
STATUS alone and is raised for the lengths. -/
theorem bufferFootprint : Obligations.BufferFootprint := by
  intro i hi s t h
  have hi := isBuffer_of_mem hi
  refine ⟨fun a => by rw [(exec_keepsOperands h).src], fun ht => ?_, fun ht => ?_⟩
  · obtain ⟨n, key, iv, src, hs⟩ := exists_supplies_of_success hi h ht
    obtain ⟨-, hbytes, hbeyond⟩ := result_of_supplies hi hs h
    refine ⟨n, hs.lengths, sourceWritten_of_holdsSource hs.source, fun a ha => isVal_iff.mpr ⟨_, hbytes a ha⟩,
      hbeyond, ?_⟩
    intro s' t' hsb hl hkey hiv hsrc h' a ha
    obtain ⟨-, hbytes', -⟩ := result_of_supplies hi (hs.transfer hl hkey hiv hsrc) h'
    rw [hbytes a ha, hbytes' a ha, hsb]
  · obtain ⟨n, m, e, hl, he, rfl⟩ := lengthError_of_status_ne_zero h ht
    refine ⟨rfl, fun src => ?_⟩
    have hl' : State.Lengths { s with src := src } n m := hl
    exact exec_of_lengthError hl' he

/-- What two states that agree on a buffer command's reads have in common. -/
theorem AgreeOnReads.of_isBuffer {i : Instr} (hi : isBuffer i) {s s' : State} (h : AgreeOnReads i s s') :
    s'.cfg.sbox = s.cfg.sbox ∧ s'.srcLen = s.srcLen ∧ s'.dstLen = s.dstLen ∧ s'.key = s.key ∧
      (isGamma i → s'.iv = s.iv) ∧ ∀ n a, s.srcLen = .val n → a < n → Memory.get s'.src a = Memory.get s.src a := by
  have hecb : isEcb i → ¬isGamma i := not_isGamma_of_isEcb
  obtain (rfl | rfl) | (rfl | rfl) := hi
  · obtain ⟨hsb, hsl, hdl, hkey, hsrc⟩ := h
    exact ⟨hsb.symm, hsl.symm, hdl.symm, hkey.symm, fun hg => absurd hg (hecb (.inl rfl)),
      fun n a hn ha => (hsrc n a hn ha).symm⟩
  · obtain ⟨hsb, hsl, hdl, hkey, hsrc⟩ := h
    exact ⟨hsb.symm, hsl.symm, hdl.symm, hkey.symm, fun hg => absurd hg (hecb (.inr rfl)),
      fun n a hn ha => (hsrc n a hn ha).symm⟩
  · obtain ⟨hsb, hsl, hdl, hiv, hkey, hsrc⟩ := h
    exact ⟨hsb.symm, hsl.symm, hdl.symm, hkey.symm, fun _ => hiv.symm, fun n a hn ha => (hsrc n a hn ha).symm⟩
  · obtain ⟨hsb, hsl, hdl, hiv, hkey, hsrc⟩ := h
    exact ⟨hsb.symm, hsl.symm, hdl.symm, hkey.symm, fun _ => hiv.symm, fun n a hn ha => (hsrc n a hn ha).symm⟩

/-- Two results of a buffer command agree when STATUS does and, on success, DST does below the length. -/
theorem agreeOnWrites_of_isBuffer {i : Instr} (hi : isBuffer i) {t t' : State} (hstatus : t.status = t'.status)
    (hdst : t.status = 0 → ∀ n a, t.srcLen = .val n → a < n → Memory.get t.dst a = Memory.get t'.dst a) :
    AgreeOnWrites i t t' := by
  obtain (rfl | rfl) | (rfl | rfl) := hi
  · exact ⟨hstatus, hdst⟩
  · exact ⟨hstatus, hdst⟩
  · exact ⟨hstatus, hdst⟩
  · exact ⟨hstatus, hdst⟩

theorem buffer_depends_on_reads {i : Instr} (hi : isBuffer i) {s s' t : State} (hagree : AgreeOnReads i s s')
    (h : exec i s = .next t) : ∃ t', exec i s' = .next t' ∧ AgreeOnWrites i t t' := by
  obtain ⟨hsb, hsl, hdl, hkey, hiv, hsrc⟩ := hagree.of_isBuffer hi
  by_cases ht : t.status = 0
  · obtain ⟨n, key, iv, src, hs⟩ := exists_supplies_of_success hi h ht
    obtain ⟨-, hbytes, -⟩ := result_of_supplies hi hs h
    have hl' : s'.Lengths n n := ⟨hsl.trans hs.lengths.1, hdl.trans hs.lengths.2⟩
    obtain ⟨dst, hnext, hbytes', -⟩ := exec_runsTo hi (hs.transfer hl' hkey hiv fun a => hsrc n a hs.lengths.1)
    refine ⟨_, hnext, agreeOnWrites_of_isBuffer hi ht fun _ n' a hn ha => ?_⟩
    obtain rfl := hs.length_eq ((exec_keepsOperands h).srcLen.symm.trans hn)
    rw [hbytes a ha, bufferDone_dst, hbytes' a ha, hsb]
  · obtain ⟨n, m, e, hl, he, rfl⟩ := lengthError_of_status_ne_zero h ht
    have hl' : s'.Lengths n m := ⟨hsl.trans hl.1, hdl.trans hl.2⟩
    exact ⟨_, exec_of_lengthError hl' he, agreeOnWrites_of_isBuffer hi rfl fun hzero => absurd hzero ht⟩

theorem blockCommand_depends_on_reads {d : Dir} {s s' t : State} (hsb : s.cfg.sbox = s'.cfg.sbox)
    (hbin : s.bin = s'.bin) (hkey : s.key = s'.key) (h : blockCommand d s = .next t) :
    ∃ t', blockCommand d s' = .next t' ∧ t.status = t'.status ∧ (t.status = 0 → t.bout = t'.bout) := by
  obtain ⟨b, key, hb, hk, rfl⟩ := blockCommand_eq_next.mp h
  have hk' : s'.HoldsKey key := by rwa [State.HoldsKey, ← hkey]
  refine ⟨_, blockCommand_of_val (hbin ▸ hb) hk', ?_, fun _ => ?_⟩
  · rw [blockDone_status, blockDone_status]
  · rw [blockDone_bout, blockDone_bout, hsb]

/-- Settles O47: for each kind of command the result is known from what it reads. -/
theorem commandsDependOnlyOnTheirReads : Obligations.CommandsDependOnlyOnTheirReads := by
  intro i s s' t hagree h
  cases i with
  | round =>
    obtain ⟨hsb, hl', hr', hk'⟩ := hagree
    obtain ⟨l, r, k, hl, hr, hk, rfl⟩ := execRound_eq_next.mp h
    refine ⟨_, execRound_of_val (hl' ▸ hl) (hr' ▸ hr) (hk' ▸ hk), ?_, fun _ => ?_⟩
    · rw [roundDone_status, roundDone_status]
    · rw [← hsb]
      exact ⟨rfl, rfl⟩
  | encblk =>
    obtain ⟨hsb, hbin, hkey⟩ := hagree
    exact blockCommand_depends_on_reads hsb hbin hkey h
  | decblk =>
    obtain ⟨hsb, hbin, hkey⟩ := hagree
    exact blockCommand_depends_on_reads hsb hbin hkey h
  | encecb => exact buffer_depends_on_reads (.inl (.inl rfl)) hagree h
  | dececb => exact buffer_depends_on_reads (.inl (.inr rfl)) hagree h
  | encgam => exact buffer_depends_on_reads (.inr (.inl rfl)) hagree h
  | decgam => exact buffer_depends_on_reads (.inr (.inr rfl)) hagree h

end Sys2Proof.Machine
